-- ==== Sys2Proof/Word.lean ====
section
/-! DEFINITION. The block's unit of data. Every buffer, operand sequence and result sequence is made of bytes
(spec R6, R30). -/

namespace Sys2Proof

/-- A byte: an unsigned 8-bit value, bit 7 the most significant (R6). -/
abbrev Byte := BitVec 8

end Sys2Proof
end

