-- ==== Sys2Proof/Config.lean ====
section
/-! DEFINITION. What an implementation fixes (the parameters of spec R5) and the one free value of the model
(the bytes EBUF holds after a reset event, U1). The parameters are carried in State as plain data, so a statement
about every state is a statement about every choice of parameters. -/

namespace Sys2Proof

/-- The legal values of the parameter `NW`, the native width (R5). -/
inductive NativeWidth where
  | w16
  | w32
  | w64
  deriving DecidableEq, Repr

/-- `NW` as a number of bits (R5). -/
def NativeWidth.bits : NativeWidth → Nat
  | .w16 => 16
  | .w32 => 32
  | .w64 => 64

/-- The integer widths in scope, `W in {8, 16, 32, 64, 128, N}` (R2). -/
inductive Width where
  | w8
  | w16
  | w32
  | w64
  | w128
  | native
  deriving DecidableEq, Repr

/-- The number of bits of a width, given the native width (R2). -/
def Width.bits (nw : NativeWidth) : Width → Nat
  | .w8 => 8
  | .w16 => 16
  | .w32 => 32
  | .w64 => 64
  | .w128 => 128
  | .native => nw.bits

/-- A buffer capacity: a number of bytes or `INF` (R5, R40). -/
inductive Capacity where
  | inf
  | bytes (n : Nat)
  deriving DecidableEq, Repr

/-- The legal capacities are `INF` and the naturals from 1 on (R5). -/
def Capacity.Legal : Capacity → Prop
  | .inf => True
  | .bytes n => 1 ≤ n

/-- The implementation parameters (R5). They are fixed for the life of an instance (R19). -/
structure Config where
  nw : NativeWidth
  rxCap : Capacity
  txCap : Capacity
  deriving DecidableEq, Repr

/-- The "default" column of R5: `NW = 64`, both capacities `INF`. -/
def Config.default : Config := { nw := .w64, rxCap := .inf, txCap := .inf }

/-- FREE VALUE (log 3): what EBUF holds after the `k`-th reset event of a run. The spec says that each byte "may hold any
value, and two resets need not give the same values" (R21, U1). It has no body, so nothing can be proved of it. -/
opaque Config.ebufAfterReset : (k : Nat) → Vector Byte 19

end Sys2Proof
end

