-- ==== Sys2Proof/Machine/Ports.lean ====
section
/-! DEFINITION. What travels at the block's ports (spec R56): a command with its operands, a reset, a response. -/

namespace Sys2Proof.Machine

/-- One issued command as the host presents it at the command port (R56, R59). `len` is carried 64 bits wide, the
widest native width; the port is its low `NW` bits. `opd` is what the host offers on the operand stream for this
command, index 0 first. -/
structure Command where
  op : Byte
  val : BitVec 128
  len : BitVec 64
  opd : List Byte
  deriving DecidableEq, Repr

/-- What the host can do to the block (R192): issue a command, or apply reset. -/
inductive HostEvent where
  | command (c : Command)
  | reset
  deriving DecidableEq, Repr

/-- The status of a response (R150). -/
inductive Status where
  /-- The command completed. -/
  | ok
  /-- One complete frame was removed from RXB. -/
  | frame
  /-- No complete frame yet; a soft signal, not an error. -/
  | none
  /-- The input of a decode ended before a terminator byte. -/
  | insufficient
  /-- A varint did not end within `maxlen(W)` bytes. -/
  | overflow
  /-- A length above `MAX_LEN`. -/
  | tooLarge
  /-- The bytes to append exceed the free space of the buffer. -/
  | noSpace
  /-- A reserved command word. -/
  | illegal
  deriving DecidableEq, Repr

/-- The response to one command (R60). A field that R60 does not name for the command and status is `none` here: the
port may then carry any value (U7), and the model says nothing of it (log 6). `len` is `rsp_len`, a count of `NW`
bits; `result` is the result byte stream, index 0 first. -/
structure Response where
  status : Status
  val : Option (BitVec 128)
  len : Option Nat
  result : List Byte
  deriving DecidableEq, Repr

end Sys2Proof.Machine
end

