-- ==== Sys2Proof/Machine/Operands.lean ====
section
/-! DEFINITION. The operand forms of spec R59: a value taken from the low bits of `cmd_val`, a count taken from the
low `NW` bits of `cmd_len`, and a sequence of exactly `cmd_len` operand bytes. -/

namespace Sys2Proof.Machine

/-- `trunc_W(v) = v mod 2^W` (R6). -/
def trunc (w v : Nat) : Nat := v % 2 ^ w

/-- `cmd_val[W-1:0]` as a `uint_W`; the bits above are ignored (R59, U8). -/
def lowBits (w : Nat) (val : BitVec 128) : BitVec w := val.setWidth w

/-- `cmd_val[NW-1:0]` as a number (R78, R120). -/
def nativeValue (nw : NativeWidth) (c : Command) : Nat := trunc nw.bits c.val.toNat

/-- `cmd_len`, an `NW`-bit count (R56, R59). -/
def count (nw : NativeWidth) (c : Command) : Nat := trunc nw.bits c.len.toNat

/-- The operand bytes of a command that takes them: exactly `cmd_len` bytes, index 0 first (R56, R59). `none` where
the host offers fewer: the command then never gets its last operand byte (U10). Bytes offered beyond `cmd_len` are not
taken (log 7). -/
def operandBytes (nw : NativeWidth) (c : Command) : Option (List Byte) :=
  if c.opd.length < count nw c then none else some (c.opd.take (count nw c))

end Sys2Proof.Machine
end

