-- ==== Sys2Proof/Machine/State.lean ====
section
/-! DEFINITION. The state of one UVC instance (spec R10), the ways a step can stop, and the state after reset. -/

namespace Sys2Proof.Machine

/-- `PEND`, the frame buffer's two-state machine (R13). `n` is the whole declared payload length, not a count that
decreases (R13, C3). -/
inductive Pend where
  | empty
  | awaitingPayload (n : Nat)
  deriving DecidableEq, Repr

/-- Why the machine stops. -/
inductive Fault where
  /-- Raised by the step when the host never supplies all the operand bytes of the command it issued and applies no
  reset: the command takes no effect and the block accepts no other (R191, U10 "stuck"). Safe: the block itself waits
  for ever. -/
  | operandsNeverSupplied
  deriving DecidableEq, Repr

/-- Why a command is refused. -/
inductive Refusal where
  /-- Raised by `exec` alone, for a command that has no meaning in the model yet; there is none. Safe. -/
  | notModelled (mnemonic : String)
  deriving DecidableEq, Repr

/-- The state. `ebuf`, `maxLen`, `pend`, `rxb` and `txb` are the spec's five-tuple (R10). `cfg` holds the parameters of
R5, which no step changes. `input`, `responses` and `resets` are the model's own: the command stream not yet taken
(R17, R19), the responses given so far, oldest first, and the number of reset events taken, which indexes the free bytes
that EBUF holds after one (logs 3, 4, 5). `maxLen` and the length in `pend` are `uint_NW` values: `NW` is a parameter, so
they are numbers, and `State.WF` bounds them. -/
structure State where
  cfg : Config
  ebuf : Vector Byte 19
  maxLen : Nat
  pend : Pend
  rxb : List Byte
  txb : List Byte
  input : List HostEvent
  responses : List Response
  resets : Nat
  deriving DecidableEq, Repr

/-- The reset state of R21 for any parameters and any contents of EBUF (R181: "a free input of the launch"). -/
def State.resetWith (cfg : Config) (ebuf : Vector Byte 19) : State :=
  { cfg := cfg
    ebuf := ebuf
    maxLen := 2 ^ cfg.nw.bits - 1
    pend := .empty
    rxb := []
    txb := []
    input := []
    responses := []
    resets := 0 }

/-- The machine right after reset (R21, R180) with the default parameters of R5. DESIGN CHOICE (log 2), unsafe: the spec
leaves EBUF unspecified; each byte is 0xAA here, the value its test vectors write for "unspecified". -/
def State.reset : State := State.resetWith Config.default (Vector.replicate 19 0xAA#8)

end Sys2Proof.Machine
end

