-- ==== Sys2Proof/Machine/Ops.lean ====
section
/-! DEFINITION. The named operations over the block's buffers and registers (spec R38 to R40), the outcome of a command
(R6), taking an error as one shared operation (R6, R154), and reset (R180). There is no return from an error: nothing was
entered (R156). -/

namespace Sys2Proof.Machine

/-- `maxlen(W) = ceil(W/7)`, the maximum encoded length for width `W` (R5, R52). -/
def maxlen (w : Nat) : Nat := (w + 6) / 7

/-- `NW` of this instance, in bits (R5). -/
def State.nwBits (s : State) : Nat := s.cfg.nw.bits

/-- `MemRead(B, off, n)` (R38). -/
def memRead (b : List Byte) (off n : Nat) : List Byte := (b.drop off).take n

/-- `MemWrite(EBUF, off, n, e)` with `n = |e|`: `EBUF[off+k] <- e[k]` for each `k`, no other byte changes (R38). No rule
writes beyond index 18, and a byte beyond it would be dropped. -/
def memWrite (v : Vector Byte 19) : (off : Nat) → (e : List Byte) → Vector Byte 19
  | _, [] => v
  | off, b :: t => memWrite (v.setIfInBounds off b) (off + 1) t

/-- `m <= Free(B)` where `Free(B)` is the capacity minus `|B|`, `INF` when the capacity is `INF` (R40). -/
def fits (cap : Capacity) (used m : Nat) : Bool :=
  match cap with
  | .inf => true
  | .bytes c => decide (m ≤ c - used)

/-- `MemWrite` on EBUF (R38). -/
def State.writeEbuf (s : State) (off : Nat) (e : List Byte) : State := { s with ebuf := memWrite s.ebuf off e }

/-- `MAX_LEN <- M` (R120); the register has `NW` bits (R12). -/
def State.setMaxLen (s : State) (m : Nat) : State := { s with maxLen := trunc s.nwBits m }

/-- `PEND <- p` (R122). -/
def State.setPend (s : State) (p : Pend) : State := { s with pend := p }

/-- `Append(RXB, q)` (R39). -/
def State.appendRxb (s : State) (q : List Byte) : State := { s with rxb := s.rxb ++ q }

/-- `DropFront(RXB, n)` (R39). -/
def State.dropRxb (s : State) (n : Nat) : State := { s with rxb := s.rxb.drop n }

/-- `Append(TXB, q)` (R39). -/
def State.appendTxb (s : State) (q : List Byte) : State := { s with txb := s.txb ++ q }

/-- `DropFront(TXB, n)` (R39). -/
def State.dropTxb (s : State) (n : Nat) : State := { s with txb := s.txb.drop n }

/-- The command's one response is given (R6, R56); it joins the record of responses (log 5). -/
def State.respond (s : State) (r : Response) : State := { s with responses := s.responses ++ [r] }

/-- `raise <Error>(info)` (R6): the command ends with the error's status; the state changes it made before stand, and
nothing is saved anywhere (R154). `len` is the offending length where R150 records one. -/
def State.raise (s : State) (st : Status) (len : Option Nat) : State :=
  s.respond { status := st, val := none, len := len, result := [] }

/-- The response to a reserved command word: status `ILLEGAL`, no state change (R58). -/
def State.illegal (s : State) : State := s.raise .illegal none

/-- Reset (R180): the reset state of R21, with free bytes in EBUF (U1, log 3). `rest` is what the host does after it.
The record of the responses already given stays, and no response is given. -/
def State.applyReset (s : State) (rest : List HostEvent) : State :=
  { s with
    ebuf := Config.ebufAfterReset s.resets
    maxLen := 2 ^ s.nwBits - 1
    pend := .empty
    rxb := []
    txb := []
    input := rest
    resets := s.resets + 1 }

end Sys2Proof.Machine
end

