-- ==== Sys2Proof/Machine/VarintDecode.lean ====
section
/-! DEFINITION. The varint_decoder (spec 41_varint_decode.md): `dec_W` (R90) and the six commands `VDEC.W` (R97 to R103). -/

namespace Sys2Proof.Machine

/-- The three outcomes of `dec_W` (R90). -/
inductive DecResult where
  | ok (value consumed : Nat)
  | insufficient
  | overflow
  deriving DecidableEq, Repr

/-- The continuation bit of an encoded byte, bit 7 (R50). -/
def continues (b : Byte) : Bool := b[7]

/-- The group of an encoded byte, bits 6:0 (R50). -/
def group (b : Byte) : Nat := (b &&& 0x7F#8).toNat

/-- The loop of R90 from index `i` on, `fuel` turns short of `maxlen(W)`, with the accumulator `acc` (an unbounded
natural) and the bytes from index `i` on. -/
def decLoop (w : Nat) : (fuel : Nat) → (i acc : Nat) → List Byte → DecResult
  | 0, _, _, _ => .overflow
  | _ + 1, _, _, [] => .insufficient
  | fuel + 1, i, acc, b :: t =>
    if continues b then decLoop w fuel (i + 1) (acc ||| group b <<< (7 * i)) t
    else .ok (trunc w (acc ||| group b <<< (7 * i))) (i + 1)

/-- `dec_W(s)` (R90). -/
def dec (w : Nat) (s : List Byte) : DecResult := decLoop w (maxlen w) 0 0 s

/-- `VDEC.W(s)`, the part common to the six commands (R97): no state is read or written, only the response is given. -/
def vdec (w : Nat) (bs : List Byte) (s : State) : State :=
  match dec w bs with
  | .ok v c => s.respond { status := .ok, val := some (BitVec.ofNat 128 v), len := some c, result := [] }
  | .insufficient => s.raise .insufficient none
  | .overflow => s.raise .overflow none

/-- `VDEC.8 s` (R98). -/
def execVdec8 (bs : List Byte) (s : State) : Host.Outcome State Fault Refusal := .next (vdec 8 bs s)

/-- `VDEC.16 s` (R99). -/
def execVdec16 (bs : List Byte) (s : State) : Host.Outcome State Fault Refusal := .next (vdec 16 bs s)

/-- `VDEC.32 s` (R100). -/
def execVdec32 (bs : List Byte) (s : State) : Host.Outcome State Fault Refusal := .next (vdec 32 bs s)

/-- `VDEC.64 s` (R101). -/
def execVdec64 (bs : List Byte) (s : State) : Host.Outcome State Fault Refusal := .next (vdec 64 bs s)

/-- `VDEC.128 s` (R102). -/
def execVdec128 (bs : List Byte) (s : State) : Host.Outcome State Fault Refusal := .next (vdec 128 bs s)

/-- `VDEC.N s` (R103): the width is `NW`. -/
def execVdecN (bs : List Byte) (s : State) : Host.Outcome State Fault Refusal := .next (vdec s.nwBits bs s)

end Sys2Proof.Machine
end

