-- ==== Sys2Proof/Machine/VarintEncode.lean ====
section
/-! DEFINITION. The varint_encoder (spec 40_varint_encode.md): `enc_W` (R70) and the six commands `VENC.W` (R72 to R78). -/

namespace Sys2Proof.Machine

/-- The low 7 bits of the remaining value, `r[6:0]` (R70). -/
def lowGroup (r : Nat) : Byte := BitVec.ofNat 8 (r % 128)

/-- The loop of R70 on the remaining value `r`, for at most `fuel` turns: a group goes out with its continuation bit set
while bits remain after it, and the loop ends with the group after which none remain. -/
def encLoop : (fuel : Nat) → (r : Nat) → List Byte
  | 0, _ => []
  | fuel + 1, r =>
    if r / 128 = 0 then [lowGroup r] else (lowGroup r ||| 0x80#8) :: encLoop fuel (r / 128)

/-- `enc_W(v)` (R70). `maxlen(W)` turns of the loop are enough for a value of width `W`. -/
def enc (w v : Nat) : List Byte := encLoop (maxlen w) v

/-- `VENC.W(v)`, the part common to the six commands (R72). -/
def venc (w v : Nat) (s : State) : State :=
  let e := enc w (trunc w v)
  (s.writeEbuf 0 e).respond { status := .ok, val := none, len := some e.length, result := e }

/-- `VENC.8 v` (R73). -/
def execVenc8 (v : BitVec 8) (s : State) : Host.Outcome State Fault Refusal := .next (venc 8 v.toNat s)

/-- `VENC.16 v` (R74). -/
def execVenc16 (v : BitVec 16) (s : State) : Host.Outcome State Fault Refusal := .next (venc 16 v.toNat s)

/-- `VENC.32 v` (R75). -/
def execVenc32 (v : BitVec 32) (s : State) : Host.Outcome State Fault Refusal := .next (venc 32 v.toNat s)

/-- `VENC.64 v` (R76). -/
def execVenc64 (v : BitVec 64) (s : State) : Host.Outcome State Fault Refusal := .next (venc 64 v.toNat s)

/-- `VENC.128 v` (R77). -/
def execVenc128 (v : BitVec 128) (s : State) : Host.Outcome State Fault Refusal := .next (venc 128 v.toNat s)

/-- `VENC.N v` (R78): the width is `NW`. -/
def execVencN (v : Nat) (s : State) : Host.Outcome State Fault Refusal := .next (venc s.nwBits v s)

end Sys2Proof.Machine
end

