-- ==== Sys2Proof/Machine/FrameBuffer.lean ====
section
/-! DEFINITION. The length_prefixed_frame_buffer (spec 42_frame_buffer.md): `SETMAX`, `RXPUSH`, `FDEC`, `FENC`, `TXPOP`. -/

namespace Sys2Proof.Machine

/-- Step 2 of `FDEC`, the payload phase with a pending length `n` (R122): the bound test, then the availability test. -/
def payloadPhase (n : Nat) (s : State) : State :=
  if s.maxLen < n then (s.setPend .empty).raise .tooLarge (some n)
  else if s.rxb.length < n then
    s.respond { status := .none, val := none, len := some (n - s.rxb.length), result := [] }
  else ((s.dropRxb n).setPend .empty).respond
    { status := .frame, val := none, len := some n, result := memRead s.rxb 0 n }

/-- `FDEC()` (R122): the length phase only when no length is pending, then the payload phase. -/
def frameDecode (s : State) : State :=
  match s.pend with
  | .awaitingPayload n => payloadPhase n s
  | .empty =>
    match dec s.nwBits s.rxb with
    | .insufficient => s.respond { status := .none, val := none, len := some 0, result := [] }
    | .overflow => s.raise .overflow none
    | .ok n c => payloadPhase n ((s.setPend (.awaitingPayload n)).dropRxb c)

/-- `enc_N(L) ++ p`, the frame of a payload (R54, R125). The prefix is built in a scratch of its own, not in EBUF (R79). -/
def frameOf (nw : Nat) (p : List Byte) : List Byte := enc nw (trunc nw p.length) ++ p

/-- `FENC(p)` (R125): the bound test, then the space test, then one append of the whole frame. -/
def frameEncode (p : List Byte) (s : State) : State :=
  let f := frameOf s.nwBits p
  if s.maxLen < p.length then s.raise .tooLarge none
  else if fits s.cfg.txCap s.txb.length f.length then
    (s.appendTxb f).respond { status := .ok, val := none, len := some (trunc s.nwBits f.length), result := [] }
  else s.raise .noSpace none

/-- `RXPUSH(q)` (R121). -/
def rxPush (q : List Byte) (s : State) : State :=
  if fits s.cfg.rxCap s.rxb.length q.length then
    (s.appendRxb q).respond { status := .ok, val := none, len := none, result := [] }
  else s.raise .noSpace none

/-- `TXPOP(c)` (R126). -/
def txPop (c : Nat) (s : State) : State :=
  let t := min c s.txb.length
  (s.dropTxb t).respond { status := .ok, val := none, len := some t, result := memRead s.txb 0 t }

/-- `SETMAX(M)` (R120). -/
def setMax (m : Nat) (s : State) : State :=
  (s.setMaxLen m).respond { status := .ok, val := none, len := none, result := [] }

/-- `FENC p` (R125). -/
def execFenc (p : List Byte) (s : State) : Host.Outcome State Fault Refusal := .next (frameEncode p s)

/-- `FDEC` (R122). -/
def execFdec (s : State) : Host.Outcome State Fault Refusal := .next (frameDecode s)

/-- `RXPUSH q` (R121). -/
def execRxpush (q : List Byte) (s : State) : Host.Outcome State Fault Refusal := .next (rxPush q s)

/-- `TXPOP c` (R126). -/
def execTxpop (c : Nat) (s : State) : Host.Outcome State Fault Refusal := .next (txPop c s)

/-- `SETMAX M` (R120). -/
def execSetmax (m : Nat) (s : State) : Host.Outcome State Fault Refusal := .next (setMax m s)

end Sys2Proof.Machine
end

