-- ==== Sys2Proof/Syntax.lean ====
section
/-! DEFINITION. The commands of the block, one constructor per row of spec/opcode_table.json (R57), each with the
operands R59 gives it. A native-width operand is a number: its width is the parameter `NW`, so `WellFormed` bounds it. -/

namespace Sys2Proof

/-- A command with its operands (R57, R59). -/
inductive Instr where
  /-- `VENC.8 v` (R73). -/
  | venc8 (v : BitVec 8)
  /-- `VENC.16 v` (R74). -/
  | venc16 (v : BitVec 16)
  /-- `VENC.32 v` (R75). -/
  | venc32 (v : BitVec 32)
  /-- `VENC.64 v` (R76). -/
  | venc64 (v : BitVec 64)
  /-- `VENC.128 v` (R77). -/
  | venc128 (v : BitVec 128)
  /-- `VENC.N v` (R78), `v : uint_NW`. -/
  | vencN (v : Nat)
  /-- `VDEC.8 s` (R98). -/
  | vdec8 (s : List Byte)
  /-- `VDEC.16 s` (R99). -/
  | vdec16 (s : List Byte)
  /-- `VDEC.32 s` (R100). -/
  | vdec32 (s : List Byte)
  /-- `VDEC.64 s` (R101). -/
  | vdec64 (s : List Byte)
  /-- `VDEC.128 s` (R102). -/
  | vdec128 (s : List Byte)
  /-- `VDEC.N s` (R103). -/
  | vdecN (s : List Byte)
  /-- `FENC p` (R125). -/
  | fenc (p : List Byte)
  /-- `FDEC` (R122). -/
  | fdec
  /-- `RXPUSH q` (R121). -/
  | rxpush (q : List Byte)
  /-- `TXPOP c` (R126), `c : uint_NW`. -/
  | txpop (c : Nat)
  /-- `SETMAX M` (R120), `M : uint_NW`. -/
  | setmax (m : Nat)
  deriving DecidableEq, Repr

end Sys2Proof
end

