-- ==== Sys2Proof/Machine/Dispatch.lean ====
section
/-! DEFINITION. The effect of each command (spec R57), one arm per constructor. -/

namespace Sys2Proof.Machine

def exec (i : Instr) (s : State) : Host.Outcome State Fault Refusal :=
  match i with
  | .venc8 v => Sys2Proof.Machine.execVenc8 v s
  | .venc16 v => Sys2Proof.Machine.execVenc16 v s
  | .venc32 v => Sys2Proof.Machine.execVenc32 v s
  | .venc64 v => Sys2Proof.Machine.execVenc64 v s
  | .venc128 v => Sys2Proof.Machine.execVenc128 v s
  | .vencN v => Sys2Proof.Machine.execVencN v s
  | .vdec8 bs => Sys2Proof.Machine.execVdec8 bs s
  | .vdec16 bs => Sys2Proof.Machine.execVdec16 bs s
  | .vdec32 bs => Sys2Proof.Machine.execVdec32 bs s
  | .vdec64 bs => Sys2Proof.Machine.execVdec64 bs s
  | .vdec128 bs => Sys2Proof.Machine.execVdec128 bs s
  | .vdecN bs => Sys2Proof.Machine.execVdecN bs s
  | .fenc p => Sys2Proof.Machine.execFenc p s
  | .fdec => Sys2Proof.Machine.execFdec s
  | .rxpush q => Sys2Proof.Machine.execRxpush q s
  | .txpop c => Sys2Proof.Machine.execTxpop c s
  | .setmax m => Sys2Proof.Machine.execSetmax m s

end Sys2Proof.Machine
end

