-- ==== Sys2Proof/WellFormed.lean ====
section
/-! DEFINITION. Which terms of `Instr` the command port can carry: a native-width operand is a `uint_NW`, and an operand
sequence has at most `2^NW - 1` bytes because `cmd_len` has `NW` bits (spec R56, R59). -/

namespace Sys2Proof

/-- `n` is a `uint_NW` (R6). -/
abbrev FitsNative (nw : NativeWidth) (n : Nat) : Prop := n < 2 ^ nw.bits

/-- The operands fit the ports of a block whose native width is `nw` (R56, R59). -/
def Instr.wellFormed (nw : NativeWidth) : Instr → Bool
  | .venc8 _ => true
  | .venc16 _ => true
  | .venc32 _ => true
  | .venc64 _ => true
  | .venc128 _ => true
  | .vencN v => decide (FitsNative nw v)
  | .vdec8 s => decide (FitsNative nw s.length)
  | .vdec16 s => decide (FitsNative nw s.length)
  | .vdec32 s => decide (FitsNative nw s.length)
  | .vdec64 s => decide (FitsNative nw s.length)
  | .vdec128 s => decide (FitsNative nw s.length)
  | .vdecN s => decide (FitsNative nw s.length)
  | .fenc p => decide (FitsNative nw p.length)
  | .fdec => true
  | .rxpush q => decide (FitsNative nw q.length)
  | .txpop c => decide (FitsNative nw c)
  | .setmax m => decide (FitsNative nw m)

/-- `Instr.wellFormed` as a proposition. -/
abbrev Instr.WellFormed (nw : NativeWidth) (i : Instr) : Prop := i.wellFormed nw = true

end Sys2Proof
end

