-- ==== Sys2Proof/Decode.lean ====
section
/-! DEFINITION. The command word (spec R57), the decoder from a command at the ports to an `Instr`, total and rejecting
by name, and the encoder written from the same table. -/

namespace Sys2Proof

open Sys2Proof.Machine

/-- Why a command at the port is no `Instr`. -/
inductive DecodeError where
  /-- A reserved command word (R58). -/
  | reserved (op : Byte)
  /-- The host offers `offered` operand bytes and the command takes `wanted` (U10). -/
  | operandsMissing (wanted offered : Nat)
  deriving DecidableEq, Repr

/-- `class`, bits 7:4 of the command word (R57). -/
def classField (op : Byte) : BitVec 4 := op.extractLsb' 4 4

/-- `z`, bit 3 of the command word (R57). -/
def zField (op : Byte) : BitVec 1 := op.extractLsb' 3 1

/-- `sel`, bits 2:0 of the command word (R57). -/
def selField (op : Byte) : BitVec 3 := op.extractLsb' 0 3

/-- The command word with the three fields of R57. -/
def commandWord (cls : BitVec 4) (z : BitVec 1) (sel : BitVec 3) : Byte := cls ++ z ++ sel

/-- A command that takes operand bytes (R59). -/
def withOperandBytes (nw : NativeWidth) (c : Command) (f : List Byte → Instr) : Except DecodeError Instr :=
  match operandBytes nw c with
  | some s => .ok (f s)
  | none => .error (.operandsMissing (count nw c) c.opd.length)

/-- Class `0001`: the width select `wsel` of the encoder; 6 and 7 are reserved (R57). -/
def decodeEncoder (nw : NativeWidth) (c : Command) : Except DecodeError Instr :=
  match (selField c.op).toNat with
  | 0 => .ok (.venc8 (lowBits 8 c.val))
  | 1 => .ok (.venc16 (lowBits 16 c.val))
  | 2 => .ok (.venc32 (lowBits 32 c.val))
  | 3 => .ok (.venc64 (lowBits 64 c.val))
  | 4 => .ok (.venc128 (lowBits 128 c.val))
  | 5 => .ok (.vencN (nativeValue nw c))
  | _ => .error (.reserved c.op)

/-- Class `0010`: the width select `wsel` of the decoder; 6 and 7 are reserved (R57). -/
def decodeDecoder (nw : NativeWidth) (c : Command) : Except DecodeError Instr :=
  match (selField c.op).toNat with
  | 0 => withOperandBytes nw c .vdec8
  | 1 => withOperandBytes nw c .vdec16
  | 2 => withOperandBytes nw c .vdec32
  | 3 => withOperandBytes nw c .vdec64
  | 4 => withOperandBytes nw c .vdec128
  | 5 => withOperandBytes nw c .vdecN
  | _ => .error (.reserved c.op)

/-- Class `0100`: the function select `fsel` of the frame buffer; 5, 6 and 7 are reserved (R57). -/
def decodeFrameBuffer (nw : NativeWidth) (c : Command) : Except DecodeError Instr :=
  match (selField c.op).toNat with
  | 0 => withOperandBytes nw c .fenc
  | 1 => .ok .fdec
  | 2 => withOperandBytes nw c .rxpush
  | 3 => .ok (.txpop (count nw c))
  | 4 => .ok (.setmax (nativeValue nw c))
  | _ => .error (.reserved c.op)

/-- The decoder. `z` must be 0 and the class one of three; every other word is reserved (R57, R58). A reserved word is
told before anything else is tested (R153). -/
def decode (nw : NativeWidth) (c : Command) : Except DecodeError Instr :=
  if zField c.op ≠ 0#1 then .error (.reserved c.op)
  else match (classField c.op).toNat with
    | 1 => decodeEncoder nw c
    | 2 => decodeDecoder nw c
    | 4 => decodeFrameBuffer nw c
    | _ => .error (.reserved c.op)

/-- A command with a value operand and no operand bytes. -/
def valueCommand (op : Byte) (val : BitVec 128) : Command := { op := op, val := val, len := 0, opd := [] }

/-- A command with operand bytes: `cmd_len` is their number (R59). -/
def bytesCommand (op : Byte) (s : List Byte) : Command :=
  { op := op, val := 0, len := BitVec.ofNat 64 s.length, opd := s }

/-- A command with a count operand and no operand bytes (R59). -/
def countCommand (op : Byte) (n : Nat) : Command := { op := op, val := 0, len := BitVec.ofNat 64 n, opd := [] }

/-- The encoder: the command word of each row of R57's map and the operands as R59 lays them out; a field the command
ignores is 0. -/
def encode : Instr → Command
  | .venc8 v => valueCommand 0x10#8 (v.setWidth 128)
  | .venc16 v => valueCommand 0x11#8 (v.setWidth 128)
  | .venc32 v => valueCommand 0x12#8 (v.setWidth 128)
  | .venc64 v => valueCommand 0x13#8 (v.setWidth 128)
  | .venc128 v => valueCommand 0x14#8 v
  | .vencN v => valueCommand 0x15#8 (BitVec.ofNat 128 v)
  | .vdec8 s => bytesCommand 0x20#8 s
  | .vdec16 s => bytesCommand 0x21#8 s
  | .vdec32 s => bytesCommand 0x22#8 s
  | .vdec64 s => bytesCommand 0x23#8 s
  | .vdec128 s => bytesCommand 0x24#8 s
  | .vdecN s => bytesCommand 0x25#8 s
  | .fenc p => bytesCommand 0x40#8 p
  | .fdec => valueCommand 0x41#8 0
  | .rxpush q => bytesCommand 0x42#8 q
  | .txpop c => countCommand 0x43#8 c
  | .setmax m => valueCommand 0x44#8 (BitVec.ofNat 128 m)

/-- The command whose word is the low `nbits` bits of `w` and whose operands are all zero and empty: what stands at the
command port for a row of spec/opcode_table.json. -/
def tableCommand (nbits w : Nat) : Command := valueCommand (BitVec.ofNat 8 (w % 2 ^ nbits)) 0

/-- The instruction the decoder reads from a row of spec/opcode_table.json, at the default parameters. -/
def decodeTableWord (nbits w : Nat) : Option Instr :=
  match decode Config.default.nw (tableCommand nbits w) with
  | .ok i => some i
  | .error _ => none

end Sys2Proof
end

