-- ==== Sys2Proof/Machine/Fetch.lean ====
section
/-! DEFINITION. What the block does next: it takes the next host event (spec R17, R35, R192). There is no program counter
and no fetch from memory (R17, R37); a command is taken from the command port and decoded. -/

namespace Sys2Proof.Machine

/-- What the next host event makes of the state. -/
inductive Action where
  /-- The next state, with no command executed. -/
  | proceed (s : State)
  /-- The command `i` is executed in `s`, from which its event was taken. -/
  | run (i : Instr) (s : State)
  /-- The block can go no further. -/
  | stop (f : Fault)
  deriving DecidableEq, Repr

/-- The next action. With no event the block idles (log 4). A reset gives the reset state (R180). A reserved word
is answered `ILLEGAL` and its operand bytes are discarded (R58). A command whose operand bytes are never supplied takes no
effect: a reset that follows abandons it with no response (R180, R191), and without one the block is stuck (U10, log 8). -/
def nextAction (s : State) : Action :=
  match s.input with
  | [] => .proceed s
  | .reset :: rest => .proceed (s.applyReset rest)
  | .command c :: rest =>
    match decode s.cfg.nw c with
    | .ok i => .run i { s with input := rest }
    | .error (.reserved _) => .proceed ({ s with input := rest } : State).illegal
    | .error (.operandsMissing _ _) =>
      match rest with
      | .reset :: rest' => .proceed (s.applyReset rest')
      | _ => .stop .operandsNeverSupplied

/-- `s` with a command at the front of the command stream. -/
def State.withCommand (s : State) (c : Command) : State := { s with input := .command c :: s.input }

end Sys2Proof.Machine
end

