-- ==== Sys2Proof/Machine/Step.lean ====
section
/-! DEFINITION. One step of the machine: one host event, a command being one atomic step (spec R7, R33). -/

namespace Sys2Proof.Machine

/-- One step: take the next host event and do what it asks (R7, R35). -/
def step (s : State) : Host.Outcome State Fault Refusal :=
  match nextAction s with
  | .proceed t => .next t
  | .run i t => exec i t
  | .stop f => .fault f

/-- `s` with the command of a row of spec/opcode_table.json at the front of the command stream, its operands zero and
empty, so that the next step takes and runs it (log 4). -/
def State.withFetchWord (s : State) (nbits w : Nat) : State := s.withCommand (tableCommand nbits w)

end Sys2Proof.Machine
end

