-- ==== Sys2Proof/Machine/Flags.lean ====
section
/-! DEFINITION. The status codes (spec R150), which command can give which status (R151), and the only flag-like state,
the tag of PEND (R18). -/

namespace Sys2Proof.Machine

/-- The 4-bit status code (R150). -/
def Status.code : Status → BitVec 4
  | .ok => 0x0#4
  | .frame => 0x1#4
  | .none => 0x2#4
  | .insufficient => 0x4#4
  | .overflow => 0x8#4
  | .tooLarge => 0x9#4
  | .noSpace => 0xA#4
  | .illegal => 0xF#4

/-- The fatal errors of R150. -/
def Status.fatal : Status → Bool
  | .overflow => true
  | .tooLarge => true
  | .ok => false
  | .frame => false
  | .none => false
  | .insufficient => false
  | .noSpace => false
  | .illegal => false

/-- The possible statuses of each command (R151). -/
def statusesOf : Instr → List Status
  | .venc8 _ => [.ok]
  | .venc16 _ => [.ok]
  | .venc32 _ => [.ok]
  | .venc64 _ => [.ok]
  | .venc128 _ => [.ok]
  | .vencN _ => [.ok]
  | .vdec8 _ => [.ok, .insufficient, .overflow]
  | .vdec16 _ => [.ok, .insufficient, .overflow]
  | .vdec32 _ => [.ok, .insufficient, .overflow]
  | .vdec64 _ => [.ok, .insufficient, .overflow]
  | .vdec128 _ => [.ok, .insufficient, .overflow]
  | .vdecN _ => [.ok, .insufficient, .overflow]
  | .fenc _ => [.ok, .tooLarge, .noSpace]
  | .fdec => [.frame, .none, .overflow, .tooLarge]
  | .rxpush _ => [.ok, .noSpace]
  | .txpop _ => [.ok]
  | .setmax _ => [.ok]

/-- The tag of PEND (R18): set while a length is pending. -/
def Pend.isPending : Pend → Bool
  | .empty => false
  | .awaitingPayload _ => true

end Sys2Proof.Machine
end

