-- ==== Sys2Proof/Machine/Outputs.lean ====
section
/-! DEFINITION. The status outputs (spec R20): pure functions of the state, driven at all times. -/

namespace Sys2Proof.Machine

/-- `st_pending` (R20). -/
def State.stPending (s : State) : BitVec 1 := if s.pend.isPending then 1#1 else 0#1

/-- `st_plen` (R20): the pending length; `none` when PEND is Empty, where the output may carry any value (U9, log 6). -/
def State.stPlen (s : State) : Option Nat :=
  match s.pend with
  | .empty => none
  | .awaitingPayload n => some n

/-- `st_max_len` (R20). -/
def State.stMaxLen (s : State) : Nat := s.maxLen

/-- `rx_count` (R20): the length of RXB, saturating at `2^NW - 1`. -/
def State.rxCount (s : State) : Nat := min s.rxb.length (2 ^ s.nwBits - 1)

/-- `tx_count` (R20): the length of TXB, saturating at `2^NW - 1`. -/
def State.txCount (s : State) : Nat := min s.txb.length (2 ^ s.nwBits - 1)

/-- The number whose base-256 digits are the bytes, the first least significant. -/
def packBytes : List Byte → Nat
  | [] => 0
  | b :: t => b.toNat + 256 * packBytes t

/-- `ebuf` (R20, R31): byte `i` in bits `[8i+7:8i]` of 152. -/
def State.ebufOut (s : State) : BitVec 152 := BitVec.ofNat 152 (packBytes s.ebuf.toList)

end Sys2Proof.Machine
end

