-- ==== Sys2Proof/Machine/SerialDecode.lean ====
section
/-! DEFINITION. The byte-serial state machine of spec R91, the second formulation of `dec_W`. It lives inside one command
and is no architectural state (R19). -/

namespace Sys2Proof.Machine

/-- A state of the machine of R91: `Start`, `Continue` with the byte counter and the accumulator, or an end. -/
inductive Serial where
  | start
  | cont (i acc : Nat)
  | ended (r : DecResult)
  deriving DecidableEq, Repr

/-- The transition of R91 on a byte, for `M = maxlen(W)`. -/
def Serial.onByte (w : Nat) (b : Byte) : Serial → Serial
  | .start => if continues b then .cont 1 (group b) else .ended (.ok (trunc w (group b)) 1)
  | .cont i acc =>
    if continues b then
      if i + 1 < maxlen w then .cont (i + 1) (acc ||| group b <<< (7 * i)) else .ended .overflow
    else .ended (.ok (trunc w (acc ||| group b <<< (7 * i))) (i + 1))
  | .ended r => .ended r

/-- The transition of R91 when the input is exhausted. -/
def Serial.onEnd : Serial → DecResult
  | .start => .insufficient
  | .cont _ _ => .insufficient
  | .ended r => r

/-- The machine run over `s` from a state. -/
def Serial.run (w : Nat) (m : Serial) (s : List Byte) : DecResult :=
  (s.foldl (fun m b => m.onByte w b) m).onEnd

end Sys2Proof.Machine
end

