-- ==== Sys2Proof/Safety.lean ====
section
/-! DEFINITION. What counts as a legal state and a well-run block, and the vocabulary the statements use. Nothing here is
part of the machine: each notion is written from the spec a second time, so that a statement compares two readings. -/

namespace Sys2Proof.Machine

/-- A buffer that holds `used` bytes respects its capacity (spec R40). -/
def Within : Capacity → Nat → Prop
  | .inf, _ => True
  | .bytes c, used => used ≤ c

/-- The bound on a pending length: a `uint_NW`, and not 0, since an empty frame is delivered at once (R13, R123). -/
def PendLegal (nwBits : Nat) : Pend → Prop
  | .empty => True
  | .awaitingPayload n => 1 ≤ n ∧ n < 2 ^ nwBits

/-- The states the block can be in: legal parameters (R5), `MAX_LEN` and the pending length of `NW` bits (R12, R13), and
both queues within their capacities (R40). -/
structure State.WF (s : State) : Prop where
  rxCapLegal : s.cfg.rxCap.Legal
  txCapLegal : s.cfg.txCap.Legal
  maxLenLegal : s.maxLen < 2 ^ s.nwBits
  pendLegal : PendLegal s.nwBits s.pend
  rxbWithin : Within s.cfg.rxCap s.rxb.length
  txbWithin : Within s.cfg.txCap s.txb.length

/-- What the host must keep with a finite `RX_CAP` (R187): `MAX_LEN <= RX_CAP` and `maxlen(N) <= RX_CAP`. -/
structure State.ReceiveSized (s : State) : Prop where
  boundFits : Within s.cfg.rxCap s.maxLen
  prefixFits : Within s.cfg.rxCap (maxlen s.nwBits)

/-- A reserved command word, told by its three fields (R58): `z = 1`, a class other than 1, 2 and 4, `wsel` 6 or 7, or
`fsel` 5, 6 or 7. -/
abbrev ReservedWord (op : Byte) : Prop :=
  op[3] = true ∨ op.toNat / 16 ∉ [1, 2, 4] ∨
    (op.toNat / 16 ∈ [1, 2] ∧ 6 ≤ op.toNat % 8) ∨ (op.toNat / 16 = 4 ∧ 5 ≤ op.toNat % 8)

/-- `s` after a command that changed nothing and gave the response `r`. -/
def answered (s : State) (r : Response) : State := { s with responses := s.responses ++ [r] }

/-- `bitlen(v)`: 0 for 0, else one plus the index of the highest set bit (R53, R71). -/
def bitlen (v : Nat) : Nat := if v = 0 then 0 else Nat.log2 v + 1

/-- The number the groups of a byte sequence spell, little-endian base 128 (R51). -/
def groupsValue : List Byte → Nat
  | [] => 0
  | b :: t => b.toNat % 128 + 128 * groupsValue t

/-- Every byte has its continuation bit set. -/
def AllContinue (s : List Byte) : Prop := ∀ b ∈ s, b[7] = true

/-- What R72 says `VENC.W v` leaves: the code in the front of EBUF, the tail of EBUF and everything else untouched, and
the response `OK` with the length and the bytes. -/
structure EncodedInto (w v : Nat) (s t : State) : Prop where
  ebufFront : ∀ i : Fin 19, i.val < (enc w v).length → some t.ebuf[i] = (enc w v)[i.val]?
  ebufTail : ∀ i : Fin 19, (enc w v).length ≤ i.val → t.ebuf[i] = s.ebuf[i]
  codeFits : (enc w v).length ≤ 19
  response : t.responses = s.responses ++
    [{ status := .ok, val := none, len := some (enc w v).length, result := enc w v }]
  others : t = { s with ebuf := t.ebuf, responses := t.responses }

/-- The response of `VDEC.W` to each outcome of the decoding (R97). -/
def decodeAnswer : DecResult → Response
  | .ok v c => { status := .ok, val := some (BitVec.ofNat 128 v), len := some c, result := [] }
  | .insufficient => { status := .insufficient, val := none, len := none, result := [] }
  | .overflow => { status := .overflow, val := none, len := none, result := [] }

/-- The rows of the state table of `FDEC` (R123): in row `k`, from state `s`, the command leaves state `t`. -/
inductive FdecRow (s : State) : Nat → State → Prop where
  | row1 : s.pend = .empty → dec s.nwBits s.rxb = .insufficient →
      FdecRow s 1 (answered s { status := .none, val := none, len := some 0, result := [] })
  | row2 : s.pend = .empty → dec s.nwBits s.rxb = .overflow →
      FdecRow s 2 (answered s { status := .overflow, val := none, len := none, result := [] })
  | row3 (n c : Nat) : s.pend = .empty → dec s.nwBits s.rxb = .ok n c → n > s.maxLen →
      FdecRow s 3 (answered { s with rxb := s.rxb.drop c }
        { status := .tooLarge, val := none, len := some n, result := [] })
  | row4 (n c : Nat) : s.pend = .empty → dec s.nwBits s.rxb = .ok n c → n ≤ s.maxLen → s.rxb.length - c < n →
      FdecRow s 4 (answered { s with pend := .awaitingPayload n, rxb := s.rxb.drop c }
        { status := .none, val := none, len := some (n - (s.rxb.length - c)), result := [] })
  | row5 (n c : Nat) : s.pend = .empty → dec s.nwBits s.rxb = .ok n c → n ≤ s.maxLen → n ≤ s.rxb.length - c →
      FdecRow s 5 (answered { s with rxb := s.rxb.drop (c + n) }
        { status := .frame, val := none, len := some n, result := (s.rxb.drop c).take n })
  | row6 (n : Nat) : s.pend = .awaitingPayload n → n > s.maxLen →
      FdecRow s 6 (answered { s with pend := .empty }
        { status := .tooLarge, val := none, len := some n, result := [] })
  | row7 (n : Nat) : s.pend = .awaitingPayload n → n ≤ s.maxLen → s.rxb.length < n →
      FdecRow s 7 (answered s { status := .none, val := none, len := some (n - s.rxb.length), result := [] })
  | row8 (n : Nat) : s.pend = .awaitingPayload n → n ≤ s.maxLen → n ≤ s.rxb.length →
      FdecRow s 8 (answered { s with pend := .empty, rxb := s.rxb.drop n }
        { status := .frame, val := none, len := some n, result := s.rxb.take n })

/-- `RXPUSH q; FDEC`, one turn of the sequence of R127. -/
def pushThenDecode (q : List Byte) (s : State) : Host.Outcome State Fault Refusal :=
  match exec (.rxpush q) s with
  | .next t => exec .fdec t
  | .fault f => .fault f
  | .refused r => .refused r

/-- The whole sequence of R127 over the pieces of a frame. -/
def pushPieces : List (List Byte) → State → Host.Outcome State Fault Refusal
  | [], s => .next s
  | q :: qs, s =>
    match pushThenDecode q s with
    | .next t => pushPieces qs t
    | .fault f => .fault f
    | .refused r => .refused r

/-- What R127 says the `FDEC` of one turn answers, for a frame of `prefixLen` prefix bytes and payload `p`, when `before`
bytes of it were pushed before the turn and `now` bytes with it. -/
def turnAnswer (prefixLen : Nat) (p : List Byte) (before now : Nat) : Response :=
  if before = prefixLen + p.length then { status := .none, val := none, len := some 0, result := [] }
  else if now = prefixLen + p.length then { status := .frame, val := none, len := some p.length, result := p }
  else if now < prefixLen then { status := .none, val := none, len := some 0, result := [] }
  else { status := .none, val := none, len := some (prefixLen + p.length - now), result := [] }

/-- All the responses of the sequence of R127, the `OK` of each `RXPUSH` among them. -/
def splitAnswers (prefixLen : Nat) (p : List Byte) : (before : Nat) → List (List Byte) → List Response
  | _, [] => []
  | before, q :: qs =>
    { status := .ok, val := none, len := none, result := [] } ::
      turnAnswer prefixLen p before (before + q.length) :: splitAnswers prefixLen p (before + q.length) qs

end Sys2Proof.Machine
end

