-- ==== Sys2Proof/Certificates/Slice0/Obligations.lean ====
section
/-! DEFINITION. The statements for the provers. Each docstring names the rule of spec/ a statement formalises. -/

open Sys2Proof Sys2Proof.Machine

/-! ## The command word, decoding, and the step -/

/-- R57, R59: the 17 command words, and the operands each command takes from the port. -/
def Obligations.CommandMapDecodes : Prop :=
  ∀ (nw : NativeWidth) (c : Command),
    (c.op = commandWord (classField c.op) (zField c.op) (selField c.op)) ∧
    (c.op = 0b00010000#8 → decode nw c = .ok (.venc8 (c.val.setWidth 8))) ∧
    (c.op = 0b00010001#8 → decode nw c = .ok (.venc16 (c.val.setWidth 16))) ∧
    (c.op = 0b00010010#8 → decode nw c = .ok (.venc32 (c.val.setWidth 32))) ∧
    (c.op = 0b00010011#8 → decode nw c = .ok (.venc64 (c.val.setWidth 64))) ∧
    (c.op = 0b00010100#8 → decode nw c = .ok (.venc128 c.val)) ∧
    (c.op = 0b00010101#8 → decode nw c = .ok (.vencN (c.val.toNat % 2 ^ nw.bits))) ∧
    (c.op = 0b01000001#8 → decode nw c = .ok .fdec) ∧
    (c.op = 0b01000011#8 → decode nw c = .ok (.txpop (c.len.toNat % 2 ^ nw.bits))) ∧
    (c.op = 0b01000100#8 → decode nw c = .ok (.setmax (c.val.toNat % 2 ^ nw.bits))) ∧
    (c.len.toNat % 2 ^ nw.bits = c.opd.length →
      (c.op = 0b00100000#8 → decode nw c = .ok (.vdec8 c.opd)) ∧
      (c.op = 0b00100001#8 → decode nw c = .ok (.vdec16 c.opd)) ∧
      (c.op = 0b00100010#8 → decode nw c = .ok (.vdec32 c.opd)) ∧
      (c.op = 0b00100011#8 → decode nw c = .ok (.vdec64 c.opd)) ∧
      (c.op = 0b00100100#8 → decode nw c = .ok (.vdec128 c.opd)) ∧
      (c.op = 0b00100101#8 → decode nw c = .ok (.vdecN c.opd)) ∧
      (c.op = 0b01000000#8 → decode nw c = .ok (.fenc c.opd)) ∧
      (c.op = 0b01000010#8 → decode nw c = .ok (.rxpush c.opd)))

/-- The model's choice (log 7): operand bytes offered beyond `cmd_len` are never looked at. -/
def Obligations.SurplusOperandBytesAreNotTaken : Prop :=
  ∀ (nw : NativeWidth) (c : Command) (k : Nat), c.len.toNat % 2 ^ nw.bits ≤ k →
    decode nw { c with opd := c.opd.take k } = decode nw c

/-- Concrete command words, written out bit by bit from R57's map, decode to the commands they stand for. -/
def Obligations.SampleWordsDecode : Prop :=
  decode .w64 { op := 0b00010000#8, val := 0x1FF, len := 0, opd := [] } = .ok (.venc8 0xFF) ∧
  decode .w16 { op := 0b00010101#8, val := 0x1FFFF, len := 0, opd := [] } = .ok (.vencN 0xFFFF) ∧
  decode .w64 { op := 0b00100001#8, val := 0, len := 2, opd := [0xAC#8, 0x02#8] } = .ok (.vdec16 [0xAC#8, 0x02#8]) ∧
  decode .w64 { op := 0b01000000#8, val := 0, len := 1, opd := [0x61#8] } = .ok (.fenc [0x61#8]) ∧
  decode .w64 { op := 0b01000001#8, val := 7, len := 9, opd := [] } = .ok .fdec ∧
  decode .w64 { op := 0b01000100#8, val := 16, len := 0, opd := [] } = .ok (.setmax 16) ∧
  decode .w64 { op := 0b01001000#8, val := 0, len := 0, opd := [] } = .error (.reserved 0b01001000#8)

/-- R57, R59: decoding an encoded well-formed command gives it back, every operand at every value the ports admit. -/
def Obligations.DecodeOfEncodeIsIdentity : Prop :=
  ∀ (nw : NativeWidth) (i : Instr), i.WellFormed nw → decode nw (encode i) = .ok i

/-- R57, R59: what the decoder accepts is well formed, and encodes to the same command word. -/
def Obligations.DecodedCommandIsWellFormed : Prop :=
  ∀ (nw : NativeWidth) (c : Command) (i : Instr), decode nw c = .ok i → i.WellFormed nw ∧ (encode i).op = c.op

/-- R58: there are 239 reserved words, told by the fields; each is taken like any other, its `cmd_len` operand bytes, if the
host sends any, are discarded, it changes no state, and it is answered `ILLEGAL` with no result bytes; no other word is
reserved. -/
def Obligations.ReservedWordAnswersIllegal : Prop :=
  ((List.range 256).filter fun n => decide (ReservedWord (BitVec.ofNat 8 n))).length = 239 ∧
  (∀ (s : State) (c : Command) (rest : List HostEvent), s.input = .command c :: rest → ReservedWord c.op →
    (c.opd = [] ∨ c.opd.length = c.len.toNat % 2 ^ s.nwBits) →
    step s = .next (answered { s with input := rest } { status := .illegal, val := none, len := none, result := [] })) ∧
  (∀ (nw : NativeWidth) (c : Command) (op : Byte), ¬ ReservedWord c.op → decode nw c ≠ .error (.reserved op))

/-- R7, R17: a command at the front of the command stream that decodes to `i` is taken, and the step is `exec i`. The
step does nothing else around it. -/
def Obligations.StepExecutesTheDecodedCommand : Prop :=
  ∀ (s : State) (c : Command) (rest : List HostEvent) (i : Instr),
    s.input = .command c :: rest → decode s.cfg.nw c = .ok i → step s = exec i { s with input := rest }

/-- The model's choice (log 4): with no event of the host nothing happens. -/
def Obligations.StepIdlesWithoutHostEvent : Prop :=
  ∀ s : State, s.input = [] → step s = .next s

/-- U10, R191 (log 8): the only stop is a command whose operand bytes are not supplied, with no reset after it; nothing is
ever refused. -/
def Obligations.OnlyAnUnsuppliedCommandStops : Prop :=
  ∀ s : State,
    (∀ r, step s ≠ .refused r) ∧
    (∀ f, step s = .fault f ↔
      ∃ c rest, s.input = .command c :: rest ∧ c.op ∈ [0x20#8, 0x21#8, 0x22#8, 0x23#8, 0x24#8, 0x25#8, 0x40#8, 0x42#8] ∧
        c.opd.length < c.len.toNat % 2 ^ s.nwBits ∧ rest.head? ≠ some .reset)

/-- Section 5 of 30_encoding.md: a step that takes a command gives exactly one response, or a reset abandons the command. -/
def Obligations.TakenCommandGivesOneResponse : Prop :=
  ∀ (s t : State) (c : Command) (rest : List HostEvent), s.input = .command c :: rest → step s = .next t →
    (t.input = rest ∧ t.resets = s.resets ∧ ∃ r, t.responses = s.responses ++ [r]) ∨
    (∃ rest', rest = .reset :: rest' ∧ t.input = rest' ∧ t.resets = s.resets + 1 ∧ t.responses = s.responses)

/-! ## Reset, invariants, outputs -/

/-- R21: the state after reset, for a reset event in any state and for `State.reset`. Nothing is said of EBUF. -/
def Obligations.ResetLeavesTheResetState : Prop :=
  (∀ (s : State) (rest : List HostEvent), s.input = .reset :: rest →
    ∃ t, step s = .next t ∧ t.pend = .empty ∧ t.maxLen = 2 ^ s.nwBits - 1 ∧ t.rxb = [] ∧ t.txb = []) ∧
  (State.reset.pend = .empty ∧ State.reset.maxLen = 2 ^ State.reset.nwBits - 1 ∧ State.reset.rxb = [] ∧ State.reset.txb = [])

/-- Section 1 of 70_reset_and_hazards.md: a command still waiting for operand bytes is abandoned by a reset, without a
response; the model takes both events in one step (log 8). -/
def Obligations.ResetAbandonsTheCommandInProgress : Prop :=
  ∀ (s : State) (c : Command) (rest : List HostEvent) (wanted offered : Nat),
    s.input = .command c :: .reset :: rest → decode s.cfg.nw c = .error (.operandsMissing wanted offered) →
    ∃ t, step s = .next t ∧ t.pend = .empty ∧ t.maxLen = 2 ^ s.nwBits - 1 ∧ t.rxb = [] ∧ t.txb = [] ∧
      t.input = rest ∧ t.responses = s.responses

/-- The reset state is legal for every legal choice of parameters and every contents of EBUF. -/
def Obligations.ResetStateIsLegal : Prop :=
  State.reset.WF ∧
  ∀ (cfg : Config) (ebuf : Vector Byte 19), cfg.rxCap.Legal → cfg.txCap.Legal → (State.resetWith cfg ebuf).WF

/-- R12, R13, R40: every step from a legal state leads to a legal state: `MAX_LEN` and the pending length keep to `NW`
bits, a pending length is not 0, and the queues keep to their capacities. -/
def Obligations.StepKeepsStateLegal : Prop :=
  ∀ s t : State, s.WF → step s = .next t → t.WF

/-- R19: the parameters are fixed for the life of an instance. -/
def Obligations.StepKeepsTheParameters : Prop :=
  ∀ s t : State, step s = .next t → t.cfg = s.cfg

/-- R20: the status outputs. -/
def Obligations.StatusOutputsShowTheState : Prop :=
  ∀ s : State,
    (s.pend = .empty → s.stPending = 0#1) ∧
    (∀ n, s.pend = .awaitingPayload n → s.stPending = 1#1 ∧ s.stPlen = some n) ∧
    s.stMaxLen = s.maxLen ∧
    s.rxCount = min s.rxb.length (2 ^ s.nwBits - 1) ∧
    s.txCount = min s.txb.length (2 ^ s.nwBits - 1) ∧
    (∀ i : Fin 19, s.ebufOut.extractLsb' (8 * i.val) 8 = s.ebuf[i])

/-- R52: the table of maximum lengths and of the bits of the last permitted byte. -/
def Obligations.MaxlenTableOfWidths : Prop :=
  ([8, 16, 32, 64, 128].map maxlen = [2, 3, 5, 10, 19]) ∧
  ([NativeWidth.w16, .w32, .w64].map (fun nw => maxlen nw.bits) = [3, 5, 10]) ∧
  ([8, 16, 32, 64, 128].map (fun w => w - 7 * (maxlen w - 1)) = [1, 2, 4, 1, 2]) ∧
  ([8, 16, 32, 64, 128].map (fun w => 7 * maxlen w - w) = [6, 5, 3, 6, 5]) ∧
  ([NativeWidth.w16, .w32, .w64].map (fun nw => nw.bits - 7 * (maxlen nw.bits - 1)) = [2, 4, 1]) ∧
  ([NativeWidth.w16, .w32, .w64].map (fun nw => 7 * maxlen nw.bits - nw.bits) = [5, 3, 6]) ∧
  (∀ w, maxlen w = (w + 6) / 7)

/-- R38: `MemRead` and `MemWrite`. -/
def Obligations.MemReadAndMemWrite : Prop :=
  (∀ (b : List Byte) (off n : Nat), off + n ≤ b.length →
    (memRead b off n).length = n ∧ (∀ k, k < n → (memRead b off n)[k]? = b[off + k]?) ∧ memRead b off 0 = []) ∧
  (∀ (v : Vector Byte 19) (off : Nat) (e : List Byte), off + e.length ≤ 19 →
    (∀ i : Fin 19, off ≤ i.val → i.val < off + e.length → some (memWrite v off e)[i] = e[i.val - off]?) ∧
    (∀ i : Fin 19, (i.val < off ∨ off + e.length ≤ i.val) → (memWrite v off e)[i] = v[i]))

/-! ## The varint_encoder -/

/-- R72: each of the six `VENC` commands takes its value from the low bits of `cmd_val`, writes the code of the value to
the front of EBUF, touches nothing else, and answers `OK` with the length and the bytes. -/
def Obligations.EncoderCommandsWriteTheCode : Prop :=
  ∀ s : State,
    (∀ c : Command,
      (c.op = 0x10#8 → decode s.cfg.nw c = .ok (.venc8 (c.val.setWidth 8))) ∧
      (c.op = 0x11#8 → decode s.cfg.nw c = .ok (.venc16 (c.val.setWidth 16))) ∧
      (c.op = 0x12#8 → decode s.cfg.nw c = .ok (.venc32 (c.val.setWidth 32))) ∧
      (c.op = 0x13#8 → decode s.cfg.nw c = .ok (.venc64 (c.val.setWidth 64))) ∧
      (c.op = 0x14#8 → decode s.cfg.nw c = .ok (.venc128 c.val)) ∧
      (c.op = 0x15#8 → decode s.cfg.nw c = .ok (.vencN (c.val.toNat % 2 ^ s.nwBits)))) ∧
    (∀ v, ∃ t, exec (.venc8 v) s = .next t ∧ EncodedInto 8 v.toNat s t) ∧
    (∀ v, ∃ t, exec (.venc16 v) s = .next t ∧ EncodedInto 16 v.toNat s t) ∧
    (∀ v, ∃ t, exec (.venc32 v) s = .next t ∧ EncodedInto 32 v.toNat s t) ∧
    (∀ v, ∃ t, exec (.venc64 v) s = .next t ∧ EncodedInto 64 v.toNat s t) ∧
    (∀ v, ∃ t, exec (.venc128 v) s = .next t ∧ EncodedInto 128 v.toNat s t) ∧
    (∀ v, ∃ t, exec (.vencN v) s = .next t ∧ EncodedInto s.nwBits (v % 2 ^ s.nwBits) s t)

/-- R71 (derived there): the length of a code, and its bound for every width in scope. -/
def Obligations.EncodedLengthFormula : Prop :=
  ∀ (nw : NativeWidth) (w : Width) (v : Nat), v < 2 ^ w.bits nw →
    (enc (w.bits nw) v).length = max 1 ((bitlen v + 6) / 7) ∧
    1 ≤ (enc (w.bits nw) v).length ∧ (enc (w.bits nw) v).length ≤ maxlen (w.bits nw)

/-- R71 (derived there): byte `i` of a code holds bits `7i+6 .. 7i` of the value, every byte but the last has bit 7 set,
and the last byte of a code of two bytes or more is not 0. -/
def Obligations.EncodedBytesCarryTheGroups : Prop :=
  ∀ (nw : NativeWidth) (w : Width) (v i : Nat) (b : Byte), v < 2 ^ w.bits nw → (enc (w.bits nw) v)[i]? = some b →
    b.toNat = v / 2 ^ (7 * i) % 128 + (if i + 1 < (enc (w.bits nw) v).length then 128 else 0) ∧
    (i + 1 = (enc (w.bits nw) v).length → 2 ≤ (enc (w.bits nw) v).length → b ≠ 0)

/-- R71, the source's minimality: zero takes one byte, the largest value of a width takes `maxlen(W)` bytes. -/
def Obligations.ZeroAndLargestCodes : Prop :=
  ∀ (nw : NativeWidth) (w : Width),
    enc (w.bits nw) 0 = [0x00#8] ∧ (enc (w.bits nw) (2 ^ w.bits nw - 1)).length = maxlen (w.bits nw)

/-- R71 (derived there): the code of a value does not depend on the width it is encoded at. -/
def Obligations.EncodingIgnoresTheWidth : Prop :=
  ∀ (nw : NativeWidth) (w₁ w₂ : Width) (v : Nat), v < 2 ^ w₁.bits nw → w₁.bits nw ≤ w₂.bits nw →
    enc (w₁.bits nw) v = enc (w₂.bits nw) v

/-- R79: no `VENC` command raises an error or reads or writes PEND, MAX_LEN, RXB or TXB, and `FENC` does not touch EBUF. -/
def Obligations.EncoderIgnoresTheFrameBuffer : Prop :=
  (∀ (i : Instr) (s t : State) (maxLen : Nat) (pend : Pend) (rxb txb : List Byte),
    (∃ v8 v16 v32 v64 v128 vN, i ∈ [Instr.venc8 v8, .venc16 v16, .venc32 v32, .venc64 v64, .venc128 v128, .vencN vN]) →
    exec i s = .next t →
    (t.maxLen = s.maxLen ∧ t.pend = s.pend ∧ t.rxb = s.rxb ∧ t.txb = s.txb) ∧
    (∃ r, t.responses = s.responses ++ [r] ∧ r.status = .ok) ∧
    exec i { s with maxLen := maxLen, pend := pend, rxb := rxb, txb := txb } =
      .next { t with maxLen := maxLen, pend := pend, rxb := rxb, txb := txb }) ∧
  (∀ (p : List Byte) (s t : State) (ebuf : Vector Byte 19), exec (.fenc p) s = .next t →
    t.ebuf = s.ebuf ∧ exec (.fenc p) { s with ebuf := ebuf } = .next { t with ebuf := ebuf })

/-! ## The varint_decoder -/

/-- R97: each of the six `VDEC` commands decodes its `cmd_len` operand bytes, answers the outcome and changes no state. -/
def Obligations.DecoderCommandsAnswerTheDecoding : Prop :=
  ∀ (s : State) (bs : List Byte),
    (∀ c : Command, c.len.toNat % 2 ^ s.nwBits = bs.length → c.opd = bs →
      (c.op = 0x20#8 → decode s.cfg.nw c = .ok (.vdec8 bs)) ∧
      (c.op = 0x21#8 → decode s.cfg.nw c = .ok (.vdec16 bs)) ∧
      (c.op = 0x22#8 → decode s.cfg.nw c = .ok (.vdec32 bs)) ∧
      (c.op = 0x23#8 → decode s.cfg.nw c = .ok (.vdec64 bs)) ∧
      (c.op = 0x24#8 → decode s.cfg.nw c = .ok (.vdec128 bs)) ∧
      (c.op = 0x25#8 → decode s.cfg.nw c = .ok (.vdecN bs))) ∧
    exec (.vdec8 bs) s = .next (answered s (decodeAnswer (dec 8 bs))) ∧
    exec (.vdec16 bs) s = .next (answered s (decodeAnswer (dec 16 bs))) ∧
    exec (.vdec32 bs) s = .next (answered s (decodeAnswer (dec 32 bs))) ∧
    exec (.vdec64 bs) s = .next (answered s (decodeAnswer (dec 64 bs))) ∧
    exec (.vdec128 bs) s = .next (answered s (decodeAnswer (dec 128 bs))) ∧
    exec (.vdecN bs) s = .next (answered s (decodeAnswer (dec s.nwBits bs)))

/-- R90: which of the three outcomes a decoding has, the value, and the number of bytes consumed. -/
def Obligations.DecodeOutcomeByTerminator : Prop :=
  ∀ (nw : NativeWidth) (w : Width) (s : List Byte),
    (∀ v c, dec (w.bits nw) s = .ok v c ↔
      ∃ pre b t, s = pre ++ b :: t ∧ AllContinue pre ∧ b[7] = false ∧ pre.length < maxlen (w.bits nw) ∧
        c = pre.length + 1 ∧ v = groupsValue (pre ++ [b]) % 2 ^ w.bits nw) ∧
    (dec (w.bits nw) s = .overflow ↔ maxlen (w.bits nw) ≤ s.length ∧ AllContinue (s.take (maxlen (w.bits nw)))) ∧
    (dec (w.bits nw) s = .insufficient ↔ s.length < maxlen (w.bits nw) ∧ AllContinue s)

/-- R95: a terminator byte `00` after continuation bytes ends a valid sequence, whose value is what the groups spell. -/
def Obligations.NonMinimalInputIsAccepted : Prop :=
  (∀ (nw : NativeWidth) (w : Width) (s t : List Byte), AllContinue s → s.length < maxlen (w.bits nw) →
    dec (w.bits nw) (s ++ 0x00#8 :: t) = .ok (groupsValue s) (s.length + 1)) ∧
  (∀ (nw : NativeWidth) (w : Width), dec (w.bits nw) [0x80#8, 0x00#8] = dec (w.bits nw) [0x80#8, 0x00#8, 0xFF#8] ∧
    dec (w.bits nw) [0x80#8, 0x00#8] = .ok 0 2 ∧ dec (w.bits nw) [0x00#8] = .ok 0 1)

/-- R96: decoding looks at no byte beyond the terminator or beyond `maxlen(W)`, and bytes after a code are never consumed. -/
def Obligations.DecodeReadsOnlyTheNeededBytes : Prop :=
  ∀ (nw : NativeWidth) (w : Width),
    (∀ s, dec (w.bits nw) s = dec (w.bits nw) (s.take (min s.length (maxlen (w.bits nw))))) ∧
    (∀ s v c t, dec (w.bits nw) s = .ok v c → dec (w.bits nw) (s.take c ++ t) = .ok v c) ∧
    (∀ v t, v < 2 ^ w.bits nw →
      dec (w.bits nw) (enc (w.bits nw) v ++ t) = .ok v (enc (w.bits nw) v).length)

/-- R91 (derived there): the byte-serial state machine, run over a sequence from `Start`, gives the decoding of R90. -/
def Obligations.SerialMachineComputesDecode : Prop :=
  ∀ (nw : NativeWidth) (w : Width) (s : List Byte), Serial.run (w.bits nw) .start s = dec (w.bits nw) s

/-- R92 (derived there): an insufficient input can still become a success, and can still become an overflow. -/
def Obligations.InsufficientIsRecoverable : Prop :=
  ∀ (nw : NativeWidth) (w : Width) (s : List Byte), dec (w.bits nw) s = .insufficient →
    (∃ t v c, dec (w.bits nw) (s ++ t) = .ok v c) ∧ (∃ t, dec (w.bits nw) (s ++ t) = .overflow)

/-- R93 (derived there): no continuation of an overflowing input decodes. -/
def Obligations.OverflowIsNeverUndone : Prop :=
  ∀ (nw : NativeWidth) (w : Width) (s t : List Byte), dec (w.bits nw) s = .overflow →
    dec (w.bits nw) (s ++ t) = .overflow

/-- R104 law 3 (derived there): every proper prefix of a code is insufficient. -/
def Obligations.ProperPrefixesAreInsufficient : Prop :=
  ∀ (nw : NativeWidth) (w : Width) (v j : Nat), v < 2 ^ w.bits nw → j < (enc (w.bits nw) v).length →
    dec (w.bits nw) ((enc (w.bits nw) v).take j) = .insufficient

/-- R104 law 5 (derived there): a wider decoder reads a narrower code. -/
def Obligations.WiderDecodeOfNarrowerCode : Prop :=
  ∀ (nw : NativeWidth) (w₁ w₂ : Width) (v : Nat), v < 2 ^ w₁.bits nw → w₁.bits nw ≤ w₂.bits nw →
    dec (w₂.bits nw) (enc (w₁.bits nw) v) = .ok v (enc (w₁.bits nw) v).length

/-! ## The frame buffer -/

/-- R120: `SETMAX` sets `MAX_LEN` to the low `NW` bits of its operand, changes nothing else, and answers `OK`. -/
def Obligations.SetmaxSetsTheBound : Prop :=
  ∀ (s : State) (m : Nat),
    (∀ c : Command, c.op = 0x44#8 → decode s.cfg.nw c = .ok (.setmax (c.val.toNat % 2 ^ s.nwBits))) ∧
    exec (.setmax m) s =
    .next (answered { s with maxLen := m % 2 ^ s.nwBits } { status := .ok, val := none, len := none, result := [] })

/-- R121: `RXPUSH` appends all of its bytes to RXB and answers `OK`, or changes nothing and answers `NOSPACE` when they
exceed the free space of a finite RXB. -/
def Obligations.RxpushAppendsAllOrNothing : Prop :=
  ∀ (s : State) (q : List Byte),
    (∀ c : Command, c.op = 0x42#8 → c.len.toNat % 2 ^ s.nwBits = q.length → c.opd = q →
      decode s.cfg.nw c = .ok (.rxpush q)) ∧
    (s.cfg.rxCap = .inf ∨ (∃ c, s.cfg.rxCap = .bytes c ∧ q.length ≤ c - s.rxb.length) →
      exec (.rxpush q) s = .next (answered { s with rxb := s.rxb ++ q }
        { status := .ok, val := none, len := none, result := [] })) ∧
    (∀ c, s.cfg.rxCap = .bytes c → q.length > c - s.rxb.length →
      exec (.rxpush q) s = .next (answered s { status := .noSpace, val := none, len := none, result := [] }))

/-- R123: the state table of `FDEC`, every row. -/
def Obligations.FdecFollowsTheStateTable : Prop :=
  ∀ (s t : State) (k : Nat), FdecRow s k t → exec .fdec s = .next t

/-- R123 (derived there): in every state exactly one row applies. -/
def Obligations.FdecRowsAreExhaustiveAndExclusive : Prop :=
  ∀ s : State, ∃ k t, FdecRow s k t ∧ ∀ k' t', FdecRow s k' t' → k' = k ∧ t' = t

/-- Section 3 of 42_frame_buffer.md, "Bound enforcement": a frame that is returned is whole (its length is the one pending,
or the one its prefix declares, and its payload is that many bytes from where RXB has it) and within the bound, a length
above the bound yields `TOOLARGE`, and no length above the bound survives the command. -/
def Obligations.FdecEnforcesTheBound : Prop :=
  ∀ s : State, ∃ t r, exec .fdec s = .next t ∧ t.responses = s.responses ++ [r] ∧
    (r.status = .frame → ∃ n, r.len = some n ∧ n ≤ s.maxLen ∧ r.result.length = n ∧
      (s.pend = .awaitingPayload n ∧ r.result = s.rxb.take n ∨
        s.pend = .empty ∧ ∃ c, dec s.nwBits s.rxb = .ok n c ∧ r.result = (s.rxb.drop c).take n)) ∧
    (r.status ≠ .frame → r.result = []) ∧
    (∀ n, t.pend = .awaitingPayload n → n ≤ s.maxLen) ∧
    (∀ n c, s.pend = .empty → dec s.nwBits s.rxb = .ok n c → s.maxLen < n → r.status = .tooLarge) ∧
    (∀ n, s.pend = .awaitingPayload n → s.maxLen < n → r.status = .tooLarge)

/-- R125: the bound test, the space test, then one append of the whole frame. -/
def Obligations.FencAppendsTheWholeFrameOrNothing : Prop :=
  ∀ (s : State) (p : List Byte), p.length < 2 ^ s.nwBits →
    (∀ c : Command, c.op = 0x40#8 → c.len.toNat % 2 ^ s.nwBits = p.length → c.opd = p →
      decode s.cfg.nw c = .ok (.fenc p)) ∧
    (p.length > s.maxLen →
      exec (.fenc p) s = .next (answered s { status := .tooLarge, val := none, len := none, result := [] })) ∧
    (∀ c, p.length ≤ s.maxLen → s.cfg.txCap = .bytes c →
      (enc s.nwBits p.length).length + p.length > c - s.txb.length →
      exec (.fenc p) s = .next (answered s { status := .noSpace, val := none, len := none, result := [] })) ∧
    (p.length ≤ s.maxLen →
      (s.cfg.txCap = .inf ∨ ∃ c, s.cfg.txCap = .bytes c ∧
        (enc s.nwBits p.length).length + p.length ≤ c - s.txb.length) →
      exec (.fenc p) s = .next (answered { s with txb := s.txb ++ (enc s.nwBits p.length ++ p) }
        { status := .ok, val := none,
          len := some (((enc s.nwBits p.length).length + p.length) % 2 ^ s.nwBits), result := [] }))

/-- R126: `TXPOP` takes `min(c, |TXB|)` bytes from the front of TXB and answers `OK` with them, also when there are
none. -/
def Obligations.TxpopTakesFromTheFront : Prop :=
  ∀ (s : State) (c : Nat),
    (∀ w : Command, w.op = 0x43#8 → decode s.cfg.nw w = .ok (.txpop (w.len.toNat % 2 ^ s.nwBits))) ∧
    exec (.txpop c) s =
    .next (answered { s with txb := s.txb.drop (min c s.txb.length) }
      { status := .ok, val := none, len := some (min c s.txb.length), result := s.txb.take (min c s.txb.length) })

/-- R127 (derived there): a frame pushed in any pieces, with an `FDEC` after each, comes back whole and unchanged at the
piece that completes it; every other `FDEC` answers `NONE` with the stated need, and nothing else is changed. -/
def Obligations.FramingRoundTripOverEverySplit : Prop :=
  ∀ (s : State) (p : List Byte) (pieces : List (List Byte)),
    s.pend = .empty → s.rxb = [] → p.length ≤ s.maxLen → p.length < 2 ^ s.nwBits →
    Within s.cfg.rxCap ((enc s.nwBits p.length).length + p.length) →
    pieces.flatten = enc s.nwBits p.length ++ p →
    pushPieces pieces s =
      .next { s with responses := s.responses ++ splitAnswers (enc s.nwBits p.length).length p 0 pieces }

/-- R128 (derived there), one command at a time: what a command takes from the front of a queue and what it leaves there
is what was there before followed by what the command appended. `FENC` that answers `OK` appends its frame, `TXPOP` takes
what it returns, `RXPUSH` that answers `OK` appends its bytes, `FDEC` takes a prefix exactly when it decodes one and the
payload it returns when it answers `FRAME`; nothing else is taken or appended. -/
def Obligations.QueuesAreFirstInFirstOut : Prop :=
  ∀ (i : Instr) (s t : State), exec i s = .next t → ∃ r, t.responses = s.responses ++ [r] ∧
    (∃ taken appended, taken ++ t.txb = s.txb ++ appended ∧
      ((∃ p, i = .fenc p ∧ r.status = .ok ∧ appended = frameOf s.nwBits p) ∨
        (∀ p, i = .fenc p → r.status ≠ .ok) ∧ appended = []) ∧
      ((∃ c, i = .txpop c ∧ taken = r.result) ∨ (∀ c, i ≠ .txpop c) ∧ taken = [])) ∧
    (∃ pre payload appended, pre ++ payload ++ t.rxb = s.rxb ++ appended ∧
      (i = .rxpush appended ∧ r.status = .ok ∨ (∀ q, i = .rxpush q → r.status ≠ .ok) ∧ appended = []) ∧
      ((i = .fdec ∧ s.pend = .empty ∧ ∃ n, dec s.nwBits s.rxb = .ok n pre.length) ∨
        (i = .fdec → s.pend = .empty → ∀ n c, dec s.nwBits s.rxb ≠ .ok n c) ∧ pre = []) ∧
      (i = .fdec ∧ r.status = .frame ∧ payload = r.result ∨ (i = .fdec → r.status ≠ .frame) ∧ payload = []))

/-- "State written" of every command rule: what each command leaves unchanged. -/
def Obligations.EachCommandWritesOnlyItsOwnState : Prop :=
  ∀ (i : Instr) (s t : State), exec i s = .next t →
    (t.cfg = s.cfg ∧ t.input = s.input ∧ t.resets = s.resets) ∧
    ((∀ v8 v16 v32 v64 v128 vN,
      i ∉ [Instr.venc8 v8, .venc16 v16, .venc32 v32, .venc64 v64, .venc128 v128, .vencN vN]) → t.ebuf = s.ebuf) ∧
    ((∀ m, i ≠ .setmax m) → t.maxLen = s.maxLen) ∧
    (i ≠ .fdec → t.pend = s.pend) ∧
    ((∀ q, i ≠ .rxpush q) → i ≠ .fdec → t.rxb = s.rxb) ∧
    ((∀ p, i ≠ .fenc p) → (∀ c, i ≠ .txpop c) → t.txb = s.txb)

/-! ## Statuses, errors, hazards -/

/-- R151 (derived there): every command completes, with one response whose status is one of those listed for it. -/
def Obligations.CommandAnswersAnAllowedStatus : Prop :=
  ∀ (i : Instr) (s : State), ∃ t r, exec i s = .next t ∧ t.responses = s.responses ++ [r] ∧ r.status ∈ statusesOf i

/-- R150: the status codes; bit 3 is set exactly for the outcomes that are neither successes nor soft signals. -/
def Obligations.StatusCodesOfTheTable : Prop :=
  [Status.ok, .frame, .none, .insufficient, .overflow, .tooLarge, .noSpace, .illegal].map Status.code =
    [0x0#4, 0x1#4, 0x2#4, 0x4#4, 0x8#4, 0x9#4, 0xA#4, 0xF#4] ∧
  ∀ st : Status, st.code[3] = true ↔ st ∉ [Status.ok, .frame, .none, .insufficient]

/-- Section 3 of 60_exceptions.md: the state each error outcome leaves, row by row, `ILLEGAL` among them (whatever bytes
come with a reserved word, log 9). -/
def Obligations.ErrorsLeaveTheStateOfTheTable : Prop :=
  (∀ (s : State) (c : Command) (rest : List HostEvent) (op : Byte), s.input = .command c :: rest →
    decode s.cfg.nw c = .error (.reserved op) →
    ∃ r, r.status = .illegal ∧ step s = .next (answered { s with input := rest } r)) ∧
  ∀ (i : Instr) (s t : State) (r : Response), exec i s = .next t → t.responses = s.responses ++ [r] →
    (r.status ∈ [Status.insufficient, .overflow, .noSpace] → t = answered s r) ∧
    (r.status = .tooLarge → i ≠ .fdec → t = answered s r) ∧
    (r.status = .tooLarge → i = .fdec → ∀ n c, s.pend = .empty → dec s.nwBits s.rxb = .ok n c →
      t = answered { s with rxb := s.rxb.drop c } r) ∧
    (r.status = .tooLarge → i = .fdec → ∀ n, s.pend = .awaitingPayload n → t = answered { s with pend := .empty } r) ∧
    (r.status = .none → s.pend = .empty → dec s.nwBits s.rxb = .insufficient → t = answered s r) ∧
    (r.status = .none → ∀ n c, s.pend = .empty → dec s.nwBits s.rxb = .ok n c →
      t = answered { s with pend := .awaitingPayload n, rxb := s.rxb.drop c } r) ∧
    (r.status = .none → ∀ n, s.pend = .awaitingPayload n → t = answered s r)

/-- Section 3 of 10_state.md: a response is an output, not state: no later command reads it. -/
def Obligations.ResponsesAreNeverRead : Prop :=
  ∀ (i : Instr) (s : State) (earlier : List Response), ∃ t r, exec i s = .next t ∧ t.responses = s.responses ++ [r] ∧
    exec i { s with responses := earlier } = .next { t with responses := earlier ++ [r] }

/-- Section 5 of 60_exceptions.md: repeating `FDEC` after `NONE` or `OVERFLOW` with nothing pushed gives the same response
again and changes nothing. -/
def Obligations.RepeatedFdecChangesNothing : Prop :=
  ∀ (s t : State) (r : Response), exec .fdec s = .next t → t.responses = s.responses ++ [r] →
    (r.status = .none ∨ r.status = .overflow) → exec .fdec t = .next (answered t r)

/-- Section 3 of 70_reset_and_hazards.md: a pending length above a finite `RX_CAP` and within the bound, with RXB full:
`FDEC` answers `NONE` and `RXPUSH` answers `NOSPACE`, and neither changes anything. -/
def Obligations.UndersizedReceiveBufferIsStuck : Prop :=
  ∀ (s : State) (n cap : Nat) (q : List Byte), s.cfg.rxCap = .bytes cap → s.pend = .awaitingPayload n → cap < n →
    n ≤ s.maxLen → s.rxb.length = cap → q ≠ [] →
    exec .fdec s = .next (answered s { status := .none, val := none, len := some (n - cap), result := [] }) ∧
    exec (.rxpush q) s = .next (answered s { status := .noSpace, val := none, len := none, result := [] })

/-- Section 3 of 70_reset_and_hazards.md: when the host keeps `MAX_LEN <= RX_CAP` and `maxlen(N) <= RX_CAP`, a `NONE`
leaves room for at least one more byte in RXB, so the stream can advance. -/
def Obligations.NoneLeavesRoomWhenSized : Prop :=
  ∀ (s t : State) (r : Response) (b : Byte), s.WF → s.ReceiveSized → exec .fdec s = .next t →
    t.responses = s.responses ++ [r] → r.status = .none →
    exec (.rxpush [b]) t = .next (answered { t with rxb := t.rxb ++ [b] }
      { status := .ok, val := none, len := none, result := [] })

/-- R12 (derived there): with the bound at `2^NW - 1` no length is ever too large. -/
def Obligations.AllOnesBoundIsUnbounded : Prop :=
  ∀ (s : State) (i : Instr), s.WF → s.maxLen = 2 ^ s.nwBits - 1 → i.WellFormed s.cfg.nw →
    ∃ t r, exec i s = .next t ∧ t.responses = s.responses ++ [r] ∧ r.status ≠ .tooLarge
end

