-- ==== Sys2Proof/Laws/State.lean ====
section
/-! SUPPORT. One lemma per field of State per named update, so that no proof unfolds a record update. -/

namespace Sys2Proof.Machine

variable (s : State)

@[simp] theorem State.writeEbuf_cfg (off : Nat) (e : List Byte) : (s.writeEbuf off e).cfg = s.cfg := rfl
@[simp] theorem State.writeEbuf_ebuf (off : Nat) (e : List Byte) : (s.writeEbuf off e).ebuf = memWrite s.ebuf off e := rfl
@[simp] theorem State.writeEbuf_maxLen (off : Nat) (e : List Byte) : (s.writeEbuf off e).maxLen = s.maxLen := rfl
@[simp] theorem State.writeEbuf_pend (off : Nat) (e : List Byte) : (s.writeEbuf off e).pend = s.pend := rfl
@[simp] theorem State.writeEbuf_rxb (off : Nat) (e : List Byte) : (s.writeEbuf off e).rxb = s.rxb := rfl
@[simp] theorem State.writeEbuf_txb (off : Nat) (e : List Byte) : (s.writeEbuf off e).txb = s.txb := rfl
@[simp] theorem State.writeEbuf_input (off : Nat) (e : List Byte) : (s.writeEbuf off e).input = s.input := rfl
@[simp] theorem State.writeEbuf_responses (off : Nat) (e : List Byte) : (s.writeEbuf off e).responses = s.responses := rfl
@[simp] theorem State.writeEbuf_resets (off : Nat) (e : List Byte) : (s.writeEbuf off e).resets = s.resets := rfl
@[simp] theorem State.writeEbuf_nwBits (off : Nat) (e : List Byte) : (s.writeEbuf off e).nwBits = s.nwBits := rfl

@[simp] theorem State.setMaxLen_cfg (m : Nat) : (s.setMaxLen m).cfg = s.cfg := rfl
@[simp] theorem State.setMaxLen_ebuf (m : Nat) : (s.setMaxLen m).ebuf = s.ebuf := rfl
@[simp] theorem State.setMaxLen_maxLen (m : Nat) : (s.setMaxLen m).maxLen = trunc s.nwBits m := rfl
@[simp] theorem State.setMaxLen_pend (m : Nat) : (s.setMaxLen m).pend = s.pend := rfl
@[simp] theorem State.setMaxLen_rxb (m : Nat) : (s.setMaxLen m).rxb = s.rxb := rfl
@[simp] theorem State.setMaxLen_txb (m : Nat) : (s.setMaxLen m).txb = s.txb := rfl
@[simp] theorem State.setMaxLen_input (m : Nat) : (s.setMaxLen m).input = s.input := rfl
@[simp] theorem State.setMaxLen_responses (m : Nat) : (s.setMaxLen m).responses = s.responses := rfl
@[simp] theorem State.setMaxLen_resets (m : Nat) : (s.setMaxLen m).resets = s.resets := rfl
@[simp] theorem State.setMaxLen_nwBits (m : Nat) : (s.setMaxLen m).nwBits = s.nwBits := rfl

@[simp] theorem State.setPend_cfg (p : Pend) : (s.setPend p).cfg = s.cfg := rfl
@[simp] theorem State.setPend_ebuf (p : Pend) : (s.setPend p).ebuf = s.ebuf := rfl
@[simp] theorem State.setPend_maxLen (p : Pend) : (s.setPend p).maxLen = s.maxLen := rfl
@[simp] theorem State.setPend_pend (p : Pend) : (s.setPend p).pend = p := rfl
@[simp] theorem State.setPend_rxb (p : Pend) : (s.setPend p).rxb = s.rxb := rfl
@[simp] theorem State.setPend_txb (p : Pend) : (s.setPend p).txb = s.txb := rfl
@[simp] theorem State.setPend_input (p : Pend) : (s.setPend p).input = s.input := rfl
@[simp] theorem State.setPend_responses (p : Pend) : (s.setPend p).responses = s.responses := rfl
@[simp] theorem State.setPend_resets (p : Pend) : (s.setPend p).resets = s.resets := rfl
@[simp] theorem State.setPend_nwBits (p : Pend) : (s.setPend p).nwBits = s.nwBits := rfl

@[simp] theorem State.appendRxb_cfg (q : List Byte) : (s.appendRxb q).cfg = s.cfg := rfl
@[simp] theorem State.appendRxb_ebuf (q : List Byte) : (s.appendRxb q).ebuf = s.ebuf := rfl
@[simp] theorem State.appendRxb_maxLen (q : List Byte) : (s.appendRxb q).maxLen = s.maxLen := rfl
@[simp] theorem State.appendRxb_pend (q : List Byte) : (s.appendRxb q).pend = s.pend := rfl
@[simp] theorem State.appendRxb_rxb (q : List Byte) : (s.appendRxb q).rxb = s.rxb ++ q := rfl
@[simp] theorem State.appendRxb_txb (q : List Byte) : (s.appendRxb q).txb = s.txb := rfl
@[simp] theorem State.appendRxb_input (q : List Byte) : (s.appendRxb q).input = s.input := rfl
@[simp] theorem State.appendRxb_responses (q : List Byte) : (s.appendRxb q).responses = s.responses := rfl
@[simp] theorem State.appendRxb_resets (q : List Byte) : (s.appendRxb q).resets = s.resets := rfl
@[simp] theorem State.appendRxb_nwBits (q : List Byte) : (s.appendRxb q).nwBits = s.nwBits := rfl

@[simp] theorem State.dropRxb_cfg (n : Nat) : (s.dropRxb n).cfg = s.cfg := rfl
@[simp] theorem State.dropRxb_ebuf (n : Nat) : (s.dropRxb n).ebuf = s.ebuf := rfl
@[simp] theorem State.dropRxb_maxLen (n : Nat) : (s.dropRxb n).maxLen = s.maxLen := rfl
@[simp] theorem State.dropRxb_pend (n : Nat) : (s.dropRxb n).pend = s.pend := rfl
@[simp] theorem State.dropRxb_rxb (n : Nat) : (s.dropRxb n).rxb = s.rxb.drop n := rfl
@[simp] theorem State.dropRxb_txb (n : Nat) : (s.dropRxb n).txb = s.txb := rfl
@[simp] theorem State.dropRxb_input (n : Nat) : (s.dropRxb n).input = s.input := rfl
@[simp] theorem State.dropRxb_responses (n : Nat) : (s.dropRxb n).responses = s.responses := rfl
@[simp] theorem State.dropRxb_resets (n : Nat) : (s.dropRxb n).resets = s.resets := rfl
@[simp] theorem State.dropRxb_nwBits (n : Nat) : (s.dropRxb n).nwBits = s.nwBits := rfl

@[simp] theorem State.appendTxb_cfg (q : List Byte) : (s.appendTxb q).cfg = s.cfg := rfl
@[simp] theorem State.appendTxb_ebuf (q : List Byte) : (s.appendTxb q).ebuf = s.ebuf := rfl
@[simp] theorem State.appendTxb_maxLen (q : List Byte) : (s.appendTxb q).maxLen = s.maxLen := rfl
@[simp] theorem State.appendTxb_pend (q : List Byte) : (s.appendTxb q).pend = s.pend := rfl
@[simp] theorem State.appendTxb_rxb (q : List Byte) : (s.appendTxb q).rxb = s.rxb := rfl
@[simp] theorem State.appendTxb_txb (q : List Byte) : (s.appendTxb q).txb = s.txb ++ q := rfl
@[simp] theorem State.appendTxb_input (q : List Byte) : (s.appendTxb q).input = s.input := rfl
@[simp] theorem State.appendTxb_responses (q : List Byte) : (s.appendTxb q).responses = s.responses := rfl
@[simp] theorem State.appendTxb_resets (q : List Byte) : (s.appendTxb q).resets = s.resets := rfl
@[simp] theorem State.appendTxb_nwBits (q : List Byte) : (s.appendTxb q).nwBits = s.nwBits := rfl

@[simp] theorem State.dropTxb_cfg (n : Nat) : (s.dropTxb n).cfg = s.cfg := rfl
@[simp] theorem State.dropTxb_ebuf (n : Nat) : (s.dropTxb n).ebuf = s.ebuf := rfl
@[simp] theorem State.dropTxb_maxLen (n : Nat) : (s.dropTxb n).maxLen = s.maxLen := rfl
@[simp] theorem State.dropTxb_pend (n : Nat) : (s.dropTxb n).pend = s.pend := rfl
@[simp] theorem State.dropTxb_rxb (n : Nat) : (s.dropTxb n).rxb = s.rxb := rfl
@[simp] theorem State.dropTxb_txb (n : Nat) : (s.dropTxb n).txb = s.txb.drop n := rfl
@[simp] theorem State.dropTxb_input (n : Nat) : (s.dropTxb n).input = s.input := rfl
@[simp] theorem State.dropTxb_responses (n : Nat) : (s.dropTxb n).responses = s.responses := rfl
@[simp] theorem State.dropTxb_resets (n : Nat) : (s.dropTxb n).resets = s.resets := rfl
@[simp] theorem State.dropTxb_nwBits (n : Nat) : (s.dropTxb n).nwBits = s.nwBits := rfl

@[simp] theorem State.respond_cfg (r : Response) : (s.respond r).cfg = s.cfg := rfl
@[simp] theorem State.respond_ebuf (r : Response) : (s.respond r).ebuf = s.ebuf := rfl
@[simp] theorem State.respond_maxLen (r : Response) : (s.respond r).maxLen = s.maxLen := rfl
@[simp] theorem State.respond_pend (r : Response) : (s.respond r).pend = s.pend := rfl
@[simp] theorem State.respond_rxb (r : Response) : (s.respond r).rxb = s.rxb := rfl
@[simp] theorem State.respond_txb (r : Response) : (s.respond r).txb = s.txb := rfl
@[simp] theorem State.respond_input (r : Response) : (s.respond r).input = s.input := rfl
@[simp] theorem State.respond_responses (r : Response) : (s.respond r).responses = s.responses ++ [r] := rfl
@[simp] theorem State.respond_resets (r : Response) : (s.respond r).resets = s.resets := rfl
@[simp] theorem State.respond_nwBits (r : Response) : (s.respond r).nwBits = s.nwBits := rfl

@[simp] theorem State.raise_cfg (st : Status) (len : Option Nat) : (s.raise st len).cfg = s.cfg := rfl
@[simp] theorem State.raise_ebuf (st : Status) (len : Option Nat) : (s.raise st len).ebuf = s.ebuf := rfl
@[simp] theorem State.raise_maxLen (st : Status) (len : Option Nat) : (s.raise st len).maxLen = s.maxLen := rfl
@[simp] theorem State.raise_pend (st : Status) (len : Option Nat) : (s.raise st len).pend = s.pend := rfl
@[simp] theorem State.raise_rxb (st : Status) (len : Option Nat) : (s.raise st len).rxb = s.rxb := rfl
@[simp] theorem State.raise_txb (st : Status) (len : Option Nat) : (s.raise st len).txb = s.txb := rfl
@[simp] theorem State.raise_input (st : Status) (len : Option Nat) : (s.raise st len).input = s.input := rfl
@[simp] theorem State.raise_responses (st : Status) (len : Option Nat) : (s.raise st len).responses = s.responses ++ [⟨st, none, len, []⟩] := rfl
@[simp] theorem State.raise_resets (st : Status) (len : Option Nat) : (s.raise st len).resets = s.resets := rfl
@[simp] theorem State.raise_nwBits (st : Status) (len : Option Nat) : (s.raise st len).nwBits = s.nwBits := rfl

@[simp] theorem State.applyReset_cfg (rest : List HostEvent) : (s.applyReset rest).cfg = s.cfg := rfl
@[simp] theorem State.applyReset_ebuf (rest : List HostEvent) : (s.applyReset rest).ebuf = Config.ebufAfterReset s.resets := rfl
@[simp] theorem State.applyReset_maxLen (rest : List HostEvent) : (s.applyReset rest).maxLen = 2 ^ s.nwBits - 1 := rfl
@[simp] theorem State.applyReset_pend (rest : List HostEvent) : (s.applyReset rest).pend = .empty := rfl
@[simp] theorem State.applyReset_rxb (rest : List HostEvent) : (s.applyReset rest).rxb = [] := rfl
@[simp] theorem State.applyReset_txb (rest : List HostEvent) : (s.applyReset rest).txb = [] := rfl
@[simp] theorem State.applyReset_input (rest : List HostEvent) : (s.applyReset rest).input = rest := rfl
@[simp] theorem State.applyReset_responses (rest : List HostEvent) : (s.applyReset rest).responses = s.responses := rfl
@[simp] theorem State.applyReset_resets (rest : List HostEvent) : (s.applyReset rest).resets = s.resets + 1 := rfl
@[simp] theorem State.applyReset_nwBits (rest : List HostEvent) : (s.applyReset rest).nwBits = s.nwBits := rfl

@[simp] theorem State.illegal_eq : s.illegal = s.raise .illegal none := rfl

end Sys2Proof.Machine
end

