-- ==== Sys2Proof/Laws/Ops.lean ====
section
/-! SUPPORT. What the shared operations over buffers, capacities and widths do, once each. -/

namespace Sys2Proof.Machine

theorem nwBits_cases (nw : NativeWidth) : nw.bits = 16 ∨ nw.bits = 32 ∨ nw.bits = 64 := by
  cases nw <;> simp [NativeWidth.bits]

theorem widthBits_ge (nw : NativeWidth) (w : Width) : 8 ≤ w.bits nw := by
  cases w <;> cases nw <;> decide

theorem widthBits_le (nw : NativeWidth) (w : Width) : w.bits nw ≤ 128 := by
  cases w <;> cases nw <;> decide

theorem le_seven_mul_maxlen (w : Nat) : w ≤ 7 * maxlen w := by
  unfold maxlen
  omega

theorem seven_mul_pred_maxlen_lt (w : Nat) (h : 0 < w) : 7 * (maxlen w - 1) < w := by
  unfold maxlen
  omega

theorem one_le_maxlen (w : Nat) (h : 0 < w) : 1 ≤ maxlen w := by
  unfold maxlen
  omega

theorem maxlen_le (w : Nat) (h : w ≤ 128) : maxlen w ≤ 19 := by
  unfold maxlen
  omega

theorem trunc_lt (w v : Nat) : trunc w v < 2 ^ w := Nat.mod_lt _ (Nat.two_pow_pos w)

theorem trunc_eq_self {w v : Nat} (h : v < 2 ^ w) : trunc w v = v := Nat.mod_eq_of_lt h

theorem fits_iff (cap : Capacity) (used m : Nat) :
    fits cap used m = true ↔ cap = .inf ∨ ∃ c, cap = .bytes c ∧ m ≤ c - used := by
  cases cap <;> simp [fits]

theorem memWrite_getElem (v : Vector Byte 19) (off : Nat) (e : List Byte) (i : Fin 19) :
    (memWrite v off e)[i] = if off ≤ i.val then (e[i.val - off]?).getD v[i] else v[i] := by
  induction e generalizing v off with
  | nil => simp [memWrite]
  | cons b t ih =>
    rw [memWrite, ih]
    by_cases h1 : off + 1 ≤ i.val
    · have h2 : i.val - off = i.val - (off + 1) + 1 := by omega
      rw [if_pos h1, if_pos (by omega), h2, List.getElem?_cons_succ]
      simp [show off ≠ i.val by omega]
    · rw [if_neg h1]
      by_cases h3 : off = i.val
      · subst h3
        simp
      · rw [if_neg (by omega)]
        simp [h3]

theorem memRead_length (b : List Byte) (off n : Nat) : (memRead b off n).length = min n (b.length - off) := by
  simp [memRead]

theorem memRead_front (b : List Byte) (n : Nat) : memRead b 0 n = b.take n := by
  simp [memRead]

end Sys2Proof.Machine
end

