-- ==== Sys2Proof/Laws/Decode.lean ====
section
/-! SUPPORT. What the operand forms and the decoder answer (spec R57 to R59), for commands at the ports and for encoded
ones. -/

namespace Sys2Proof.Machine

theorem State.nwBits_eq (s : State) : s.nwBits = s.cfg.nw.bits := rfl

theorem pow_nwBits_le (nw : NativeWidth) : 2 ^ nw.bits ≤ 2 ^ 64 := by
  cases nw <;> decide

theorem operandBytes_enough {nw : NativeWidth} {c : Command} (h : count nw c ≤ c.opd.length) :
    operandBytes nw c = some (c.opd.take (count nw c)) := by
  rw [operandBytes, if_neg (by omega)]

theorem operandBytes_missing {nw : NativeWidth} {c : Command} (h : c.opd.length < count nw c) :
    operandBytes nw c = none := by
  rw [operandBytes, if_pos h]

theorem count_bytesCommand {nw : NativeWidth} {op : Byte} {s : List Byte} (h : s.length < 2 ^ nw.bits) :
    count nw (bytesCommand op s) = s.length := by
  have h64 := pow_nwBits_le nw
  rw [count, bytesCommand, BitVec.toNat_ofNat, Nat.mod_eq_of_lt (by omega), trunc_eq_self h]

theorem operandBytes_bytesCommand {nw : NativeWidth} {op : Byte} {s : List Byte} (h : s.length < 2 ^ nw.bits) :
    operandBytes nw (bytesCommand op s) = some s := by
  have hc := count_bytesCommand (op := op) h
  rw [operandBytes_enough (by rw [hc]; exact Nat.le_refl _), hc]
  simp [bytesCommand]

theorem count_countCommand {nw : NativeWidth} {op : Byte} {n : Nat} (h : n < 2 ^ nw.bits) :
    count nw (countCommand op n) = n := by
  have h64 := pow_nwBits_le nw
  rw [count, countCommand, BitVec.toNat_ofNat, Nat.mod_eq_of_lt (by omega), trunc_eq_self h]

theorem nativeValue_valueCommand {nw : NativeWidth} {op : Byte} {n : Nat} (h : n < 2 ^ nw.bits) :
    nativeValue nw (valueCommand op (BitVec.ofNat 128 n)) = n := by
  have h64 := pow_nwBits_le nw
  rw [nativeValue, valueCommand, BitVec.toNat_ofNat, Nat.mod_eq_of_lt (by omega), trunc_eq_self h]

/-- A command that takes operand bytes never reports a reserved word. -/
theorem withOperandBytes_cases (nw : NativeWidth) (c : Command) (f : List Byte → Instr) :
    (count nw c ≤ c.opd.length ∧ withOperandBytes nw c f = .ok (f (c.opd.take (count nw c)))) ∨
    (c.opd.length < count nw c ∧
      withOperandBytes nw c f = .error (.operandsMissing (count nw c) c.opd.length)) := by
  by_cases h : c.opd.length < count nw c
  · exact .inr ⟨h, by rw [withOperandBytes, operandBytes_missing h]⟩
  · exact .inl ⟨by omega, by rw [withOperandBytes, operandBytes_enough (by omega)]⟩

end Sys2Proof.Machine
end

