-- ==== Sys2Proof/Laws/VarintEncode.lean ====
section
/-! SUPPORT. What the loop of `enc_W` emits (spec R70): one lemma per turn, then the code as a whole. -/

namespace Sys2Proof.Machine

theorem lowGroup_toNat (r : Nat) : (lowGroup r).toNat = r % 128 := by
  simp only [lowGroup, BitVec.toNat_ofNat]
  omega

theorem lowGroup_continued_toNat (r : Nat) : (lowGroup r ||| 0x80#8).toNat = r % 128 + 128 := by
  have h := Nat.two_pow_add_eq_or_of_lt (i := 7) (b := r % 128) (by omega) 1
  rw [BitVec.toNat_or, lowGroup_toNat, Nat.or_comm]
  simpa [Nat.add_comm] using h.symm

theorem bit_seven_toNat (b : Byte) : b[7] = decide (128 ≤ b.toNat) := by
  revert b
  decide

theorem lowGroup_last (r : Nat) : (lowGroup r)[7] = false := by
  rw [bit_seven_toNat, lowGroup_toNat]
  simp only [decide_eq_false_iff_not]
  omega

theorem lowGroup_continued (r : Nat) : (lowGroup r ||| 0x80#8)[7] = true := by
  rw [bit_seven_toNat, lowGroup_continued_toNat]
  simp

theorem encLoop_last {fuel r : Nat} (h : r < 128) : encLoop (fuel + 1) r = [lowGroup r] := by
  simp [encLoop, Nat.div_eq_of_lt h]

theorem encLoop_more {fuel r : Nat} (h : 128 ≤ r) :
    encLoop (fuel + 1) r = (lowGroup r ||| 0x80#8) :: encLoop fuel (r / 128) := by
  have : r / 128 ≠ 0 := by omega
  simp [encLoop, this]

theorem next_lt {r k : Nat} (h : r < 128 ^ (k + 1)) : r / 128 < 128 ^ k := by
  rw [Nat.pow_succ] at h
  omega

/-- A code is its continued groups and then its last group; `groups` counts them. -/
theorem encLoop_shape (fuel r : Nat) (h : r < 128 ^ (fuel + 1)) :
    ∃ pre last, encLoop (fuel + 1) r = pre ++ [last] ∧ (∀ b ∈ pre, b[7] = true) ∧
      last[7] = false ∧ pre.length ≤ fuel := by
  induction fuel generalizing r with
  | zero => exact ⟨[], lowGroup r, by simpa using encLoop_last (by simpa using h), by simp, lowGroup_last r, by simp⟩
  | succ k ih =>
    by_cases hr : r < 128
    · exact ⟨[], lowGroup r, by simpa using encLoop_last hr, by simp, lowGroup_last r, by simp⟩
    · obtain ⟨pre, last, he, hp, hl, hn⟩ := ih (r / 128) (next_lt h)
      refine ⟨(lowGroup r ||| 0x80#8) :: pre, last, ?_, ?_, hl, by simpa using hn⟩
      · rw [encLoop_more (by omega), he, List.cons_append]
      · simpa [lowGroup_continued] using hp

/-- Fuel beyond what the value needs changes nothing: the loop never looks at the width (R71). -/
theorem encLoop_fuel (f g r : Nat) (hf : r < 128 ^ (f + 1)) (hg : r < 128 ^ (g + 1)) :
    encLoop (f + 1) r = encLoop (g + 1) r := by
  induction f generalizing g r with
  | zero => rw [encLoop_last (by simpa using hf), encLoop_last (by simpa using hf)]
  | succ k ih =>
    by_cases hr : r < 128
    · rw [encLoop_last hr, encLoop_last hr]
    · cases g with
      | zero => exact absurd (by simpa using hg) hr
      | succ m =>
        rw [encLoop_more (fuel := k + 1) (by omega), encLoop_more (fuel := m + 1) (by omega),
          ih m (r / 128) (next_lt hf) (next_lt hg)]

/-- Byte `i` of a code: its group, and its continuation bit while bytes follow. -/
theorem encLoop_byte (fuel r i : Nat) (b : Byte) (h : r < 128 ^ (fuel + 1)) (hb : (encLoop (fuel + 1) r)[i]? = some b) :
    b.toNat = r / 128 ^ i % 128 + (if i + 1 < (encLoop (fuel + 1) r).length then 128 else 0) := by
  induction fuel generalizing r i with
  | zero =>
    rw [encLoop_last (by simpa using h)] at hb ⊢
    cases i with
    | zero => simp at hb; simp [← hb, lowGroup_toNat]
    | succ n => simp at hb
  | succ k ih =>
    by_cases hr : r < 128
    · rw [encLoop_last hr] at hb ⊢
      cases i with
      | zero => simp at hb; simp [← hb, lowGroup_toNat]
      | succ n => simp at hb
    · have hq : r / 128 < 128 ^ (k + 1) := next_lt h
      rw [encLoop_more (by omega)] at hb ⊢
      cases i with
      | zero =>
        obtain ⟨pre, last, he, -⟩ := encLoop_shape k (r / 128) hq
        have hb' : b = lowGroup r ||| 0x80#8 := by simpa using hb.symm
        rw [hb', lowGroup_continued_toNat]
        simp [he]
      | succ n =>
        have := ih (r / 128) n hq (by simpa using hb)
        rw [this, Nat.div_div_eq_div_mul, Nat.pow_succ, Nat.mul_comm 128]
        simp

/-- The length of a code: `j` bytes hold the values below `128 ^ j`. -/
theorem encLoop_length_le (fuel r j : Nat) (h : r < 128 ^ (fuel + 1)) :
    (encLoop (fuel + 1) r).length ≤ j ↔ 1 ≤ j ∧ r < 128 ^ j := by
  induction fuel generalizing r j with
  | zero =>
    have hr : r < 128 := by simpa using h
    rw [encLoop_last hr]
    constructor
    · intro hj
      exact ⟨hj, Nat.lt_of_lt_of_le hr (by simpa using Nat.pow_le_pow_right (n := 128) (by omega) hj)⟩
    · exact fun hj => hj.1
  | succ k ih =>
    by_cases hr : r < 128
    · rw [encLoop_last hr]
      constructor
      · intro hj
        exact ⟨hj, Nat.lt_of_lt_of_le hr (by simpa using Nat.pow_le_pow_right (n := 128) (by omega) hj)⟩
      · exact fun hj => hj.1
    · rw [encLoop_more (by omega)]
      cases j with
      | zero => simp
      | succ n =>
        have hq : r / 128 < 128 ^ (k + 1) := next_lt h
        rw [List.length_cons, Nat.add_le_add_iff_right, ih (r / 128) n hq, Nat.pow_succ]
        constructor
        · intro ⟨_, h2⟩
          exact ⟨by omega, by omega⟩
        · intro ⟨_, h2⟩
          refine ⟨?_, by omega⟩
          cases n with
          | zero => omega
          | succ _ => omega

/-- `enc_W` is a run of the loop with one turn to spare for a value of width `W`. -/
theorem enc_eq_encLoop (w v : Nat) (hw : 0 < w) (h : v < 2 ^ w) :
    enc w v = encLoop (maxlen w - 1 + 1) v ∧ v < 128 ^ (maxlen w - 1 + 1) := by
  have hm := one_le_maxlen w hw
  have hs : maxlen w - 1 + 1 = maxlen w := by omega
  refine ⟨by rw [enc, hs], ?_⟩
  rw [hs, show (128 : Nat) = 2 ^ 7 from rfl, ← Nat.pow_mul]
  exact Nat.lt_of_lt_of_le h (Nat.pow_le_pow_right (by omega) (le_seven_mul_maxlen w))

theorem enc_length_le_maxlen (w v : Nat) (hw : 0 < w) (h : v < 2 ^ w) : (enc w v).length ≤ maxlen w := by
  obtain ⟨he, hv⟩ := enc_eq_encLoop w v hw h
  rw [he, encLoop_length_le _ _ _ hv]
  have hm := one_le_maxlen w hw
  rw [show maxlen w - 1 + 1 = maxlen w by omega] at hv
  exact ⟨hm, hv⟩

end Sys2Proof.Machine
end

