-- ==== Sys2Proof/Laws/VarintDecode.lean ====
section
/-! SUPPORT. What the loop of `dec_W` answers (spec R90), by the shape of the bytes it is given. -/

namespace Sys2Proof.Machine

theorem group_eq (b : Byte) : group b = b.toNat % 128 := by
  revert b
  decide

theorem group_lt (b : Byte) : group b < 128 := by
  rw [group_eq]
  omega

/-- The groups do not overlap, so the accumulator's `|` is a sum (R51). -/
theorem accumulate (acc g i : Nat) (h : acc < 2 ^ (7 * i)) : acc ||| g <<< (7 * i) = acc + 2 ^ (7 * i) * g := by
  rw [Nat.shiftLeft_eq, Nat.mul_comm g, Nat.or_comm, ← Nat.two_pow_add_eq_or_of_lt h, Nat.add_comm]

theorem accumulate_lt (acc g i : Nat) (h : acc < 2 ^ (7 * i)) (hg : g < 128) :
    acc + 2 ^ (7 * i) * g < 2 ^ (7 * (i + 1)) := by
  have h7 : 2 ^ (7 * (i + 1)) = 2 ^ (7 * i) * 128 := by rw [Nat.mul_add, Nat.pow_add]
  have := Nat.mul_le_mul_left (2 ^ (7 * i)) (show g + 1 ≤ 128 from hg)
  rw [Nat.mul_add] at this
  omega

theorem groupsValue_append_singleton (s : List Byte) (b : Byte) :
    groupsValue (s ++ [b]) = groupsValue s + 2 ^ (7 * s.length) * (b.toNat % 128) := by
  induction s with
  | nil => simp [groupsValue]
  | cons c t ih =>
    have h7 : 2 ^ (7 * (t.length + 1)) = 128 * 2 ^ (7 * t.length) := by
      rw [Nat.mul_add, Nat.pow_add, Nat.mul_comm]
    rw [List.cons_append, groupsValue, groupsValue, ih, List.length_cons, h7, Nat.mul_add, Nat.mul_assoc, Nat.add_assoc]

theorem groupsValue_lt (s : List Byte) : groupsValue s < 2 ^ (7 * s.length) := by
  induction s with
  | nil => simp [groupsValue]
  | cons c t ih =>
    have h7 : 2 ^ (7 * (t.length + 1)) = 128 * 2 ^ (7 * t.length) := by
      rw [Nat.mul_add, Nat.pow_add, Nat.mul_comm]
    simp only [groupsValue, List.length_cons, h7]
    omega

/-- Continued bytes, then a terminator in time: the loop ends at the terminator. -/
theorem decLoop_terminated (w : Nat) (pre t : List Byte) (b : Byte) (fuel i acc : Nat) (hp : AllContinue pre)
    (hb : b[7] = false) (hf : pre.length < fuel) (ha : acc < 2 ^ (7 * i)) :
    decLoop w fuel i acc (pre ++ b :: t) =
      .ok (trunc w (acc + 2 ^ (7 * i) * groupsValue (pre ++ [b]))) (i + pre.length + 1) := by
  induction pre generalizing fuel i acc with
  | nil =>
    obtain ⟨f, rfl⟩ : ∃ f, fuel = f + 1 := ⟨fuel - 1, by simp at hf; omega⟩
    rw [List.nil_append, decLoop, continues, hb, accumulate acc (group b) i ha, group_eq]
    simp [groupsValue]
  | cons x p ih =>
    obtain ⟨f, rfl⟩ : ∃ f, fuel = f + 1 := ⟨fuel - 1, by simp at hf; omega⟩
    have hc : x[7] = true := hp x (by simp)
    have h7 : 2 ^ (7 * (i + 1)) = 2 ^ (7 * i) * 128 := by rw [Nat.mul_add, Nat.pow_add]
    simp only [List.cons_append, decLoop, continues, hc, if_true, accumulate acc (group x) i ha]
    rw [ih f (i + 1) _ (fun y hy => hp y (by simp [hy])) (by simpa using hf) (accumulate_lt acc _ i ha (group_lt x))]
    rw [groupsValue, group_eq, h7, Nat.mul_add, Nat.mul_assoc, Nat.add_assoc, List.length_cons]
    congr 1
    omega

/-- As many continued bytes as turns are left: the loop overflows. -/
theorem decLoop_overflow (w fuel i acc : Nat) (s : List Byte) (hf : fuel ≤ s.length) (hs : AllContinue (s.take fuel)) :
    decLoop w fuel i acc s = .overflow := by
  induction fuel generalizing i acc s with
  | zero => simp [decLoop]
  | succ f ih =>
    cases s with
    | nil => simp at hf
    | cons b t =>
      have hb : b[7] = true := hs b (by simp)
      simp only [decLoop, continues, hb, if_true]
      exact ih _ _ t (by simpa using hf) fun x hx => hs x (by simp [hx])

/-- Fewer bytes than turns, all continued: the loop runs out of input. -/
theorem decLoop_insufficient (w fuel i acc : Nat) (s : List Byte) (hf : s.length < fuel) (hs : AllContinue s) :
    decLoop w fuel i acc s = .insufficient := by
  induction s generalizing fuel i acc with
  | nil =>
    obtain ⟨f, rfl⟩ : ∃ f, fuel = f + 1 := ⟨fuel - 1, by simp at hf; omega⟩
    simp [decLoop]
  | cons b t ih =>
    obtain ⟨f, rfl⟩ : ∃ f, fuel = f + 1 := ⟨fuel - 1, by simp at hf; omega⟩
    have hb : b[7] = true := hs b (by simp)
    simp only [decLoop, continues, hb, if_true]
    exact ih f _ _ (by simpa using hf) fun x hx => hs x (by simp [hx])

/-- A byte sequence either has a terminator, with continued bytes before it, or only continued bytes. -/
theorem terminator_cases (s : List Byte) :
    (∃ pre b t, s = pre ++ b :: t ∧ AllContinue pre ∧ b[7] = false) ∨ AllContinue s := by
  induction s with
  | nil => right; simp [AllContinue]
  | cons a u ih =>
    cases hc : a[7] with
    | false => exact .inl ⟨[], a, u, rfl, by simp [AllContinue], hc⟩
    | true =>
      obtain ⟨pre, b, t, rfl, hp, hb⟩ | hu := ih
      · refine .inl ⟨a :: pre, b, t, rfl, ?_, hb⟩
        intro x hx
        obtain rfl | hx := List.mem_cons.mp hx
        · exact hc
        · exact hp x hx
      · right
        intro x hx
        obtain rfl | hx := List.mem_cons.mp hx
        · exact hc
        · exact hu x hx

end Sys2Proof.Machine
end

