-- ==== Sys2Proof/Laws/FrameBuffer.lean ====
section
/-! SUPPORT. Everything each command can do, said once: the varint commands and the frame buffer (spec R72, R97, R120 to
R126). -/

namespace Sys2Proof.Machine

@[simp] theorem legal_inf : Capacity.inf.Legal := trivial

@[simp] theorem legal_bytes (n : Nat) : (Capacity.bytes n).Legal ↔ 1 ≤ n := Iff.rfl

@[simp] theorem within_inf (used : Nat) : Within .inf used := trivial

@[simp] theorem within_bytes (c used : Nat) : Within (.bytes c) used ↔ used ≤ c := Iff.rfl

@[simp] theorem pendLegal_empty (nw : Nat) : PendLegal nw .empty := trivial

@[simp] theorem pendLegal_awaiting (nw n : Nat) : PendLegal nw (.awaitingPayload n) ↔ 1 ≤ n ∧ n < 2 ^ nw := Iff.rfl

theorem Within.mono {cap : Capacity} {a b : Nat} (h : Within cap b) (hab : a ≤ b) : Within cap a := by
  cases cap with
  | inf => exact trivial
  | bytes c => exact Nat.le_trans hab h

/-- An append that fits keeps the capacity (R40). -/
theorem within_append {cap : Capacity} {b q : List Byte} (h : Within cap b.length)
    (hf : fits cap b.length q.length = true) : Within cap (b ++ q).length := by
  cases cap with
  | inf => exact trivial
  | bytes c =>
    simp only [fits, decide_eq_true_eq] at hf
    simp only [within_bytes, List.length_append] at h ⊢
    omega

theorem answered_eq_respond (s : State) (r : Response) : answered s r = s.respond r := by rfl

/-- `VDEC.W` is the response to the outcome of the decoding and nothing else. -/
theorem vdec_eq (w : Nat) (bs : List Byte) (s : State) : vdec w bs s = s.respond (decodeAnswer (dec w bs)) := by
  unfold vdec
  cases dec w bs <;> rfl

/-- `VENC.W` writes the code to EBUF and answers with it. -/
theorem venc_eq (w v : Nat) (s : State) :
    venc w v s = (s.writeEbuf 0 (enc w (trunc w v))).respond
      ⟨.ok, none, some (enc w (trunc w v)).length, enc w (trunc w v)⟩ := by
  rfl

/-- The payload phase: too large, incomplete, or a frame (R122 step 2). -/
theorem payloadPhase_cases (n : Nat) (s : State) :
    (s.maxLen < n ∧ payloadPhase n s = (s.setPend .empty).respond ⟨.tooLarge, none, some n, []⟩) ∨
    (n ≤ s.maxLen ∧ s.rxb.length < n ∧
      payloadPhase n s = s.respond ⟨.none, none, some (n - s.rxb.length), []⟩) ∨
    (n ≤ s.maxLen ∧ n ≤ s.rxb.length ∧
      payloadPhase n s = ((s.dropRxb n).setPend .empty).respond ⟨.frame, none, some n, s.rxb.take n⟩) := by
  by_cases h1 : s.maxLen < n
  · exact .inl ⟨h1, by simp only [payloadPhase, h1, if_true]; rfl⟩
  · by_cases h2 : s.rxb.length < n
    · exact .inr (.inl ⟨by omega, h2, by simp only [payloadPhase, h1, h2, if_true, if_false]⟩)
    · exact .inr (.inr ⟨by omega, by omega,
        by simp only [payloadPhase, h1, h2, if_false, memRead_front]⟩)

theorem frameDecode_awaiting {s : State} {n : Nat} (h : s.pend = .awaitingPayload n) :
    frameDecode s = payloadPhase n s := by
  rw [frameDecode, h]

theorem frameDecode_insufficient {s : State} (h : s.pend = .empty) (hd : dec s.nwBits s.rxb = .insufficient) :
    frameDecode s = s.respond ⟨.none, none, some 0, []⟩ := by
  rw [frameDecode, h, hd]

theorem frameDecode_overflow {s : State} (h : s.pend = .empty) (hd : dec s.nwBits s.rxb = .overflow) :
    frameDecode s = s.respond ⟨.overflow, none, none, []⟩ := by
  rw [frameDecode, h, hd]
  rfl

theorem frameDecode_ok {s : State} {n c : Nat} (h : s.pend = .empty) (hd : dec s.nwBits s.rxb = .ok n c) :
    frameDecode s = payloadPhase n ((s.setPend (.awaitingPayload n)).dropRxb c) := by
  rw [frameDecode, h, hd]

/-- `FENC`: too large, the whole frame, or no space (R125). -/
theorem frameEncode_cases (p : List Byte) (s : State) :
    (s.maxLen < p.length ∧ frameEncode p s = s.respond ⟨.tooLarge, none, none, []⟩) ∨
    (p.length ≤ s.maxLen ∧ fits s.cfg.txCap s.txb.length (frameOf s.nwBits p).length = true ∧
      frameEncode p s = (s.appendTxb (frameOf s.nwBits p)).respond
        ⟨.ok, none, some (trunc s.nwBits (frameOf s.nwBits p).length), []⟩) ∨
    (p.length ≤ s.maxLen ∧ fits s.cfg.txCap s.txb.length (frameOf s.nwBits p).length = false ∧
      frameEncode p s = s.respond ⟨.noSpace, none, none, []⟩) := by
  by_cases h1 : s.maxLen < p.length
  · exact .inl ⟨h1, by simp only [frameEncode, h1, if_true]; rfl⟩
  · cases h2 : fits s.cfg.txCap s.txb.length (frameOf s.nwBits p).length with
    | true => exact .inr (.inl ⟨by omega, rfl, by simp only [frameEncode, h1, h2, if_true, if_false]⟩)
    | false => exact .inr (.inr ⟨by omega, rfl, by simp only [frameEncode, h1, h2, if_false, Bool.false_eq_true]; rfl⟩)

/-- `RXPUSH`: all of the bytes or none (R121). -/
theorem rxPush_cases (q : List Byte) (s : State) :
    (fits s.cfg.rxCap s.rxb.length q.length = true ∧
      rxPush q s = (s.appendRxb q).respond ⟨.ok, none, none, []⟩) ∨
    (fits s.cfg.rxCap s.rxb.length q.length = false ∧ rxPush q s = s.respond ⟨.noSpace, none, none, []⟩) := by
  cases h : fits s.cfg.rxCap s.rxb.length q.length with
  | true => exact .inl ⟨rfl, by simp only [rxPush, h, if_true]⟩
  | false => exact .inr ⟨rfl, by simp only [rxPush, h, if_false, Bool.false_eq_true]; rfl⟩

/-- `TXPOP` (R126). -/
theorem txPop_eq (c : Nat) (s : State) :
    txPop c s = (s.dropTxb (min c s.txb.length)).respond
      ⟨.ok, none, some (min c s.txb.length), s.txb.take (min c s.txb.length)⟩ := by
  rw [txPop, memRead_front]

/-- `SETMAX` (R120). -/
theorem setMax_eq (m : Nat) (s : State) : setMax m s = (s.setMaxLen m).respond ⟨.ok, none, none, []⟩ := by
  rfl

end Sys2Proof.Machine
end

