-- ==== Sys2Proof/Laws/PerInstr.lean ====
section
/-! SUPPORT. Facts about every command as syntax, one lemma per constructor. `WordOfTable`: the command word of an encoded
command has `z = 0` and the class and select of its row of spec/opcode_table.json (spec R57). -/

namespace Sys2Proof.Laws.WordOfTable

open Sys2Proof

/-- The class and select of each command's row. -/
def fields : Instr → Nat × Nat
  | .venc8 _ => (1, 0)
  | .venc16 _ => (1, 1)
  | .venc32 _ => (1, 2)
  | .venc64 _ => (1, 3)
  | .venc128 _ => (1, 4)
  | .vencN _ => (1, 5)
  | .vdec8 _ => (2, 0)
  | .vdec16 _ => (2, 1)
  | .vdec32 _ => (2, 2)
  | .vdec64 _ => (2, 3)
  | .vdec128 _ => (2, 4)
  | .vdecN _ => (2, 5)
  | .fenc _ => (4, 0)
  | .fdec => (4, 1)
  | .rxpush _ => (4, 2)
  | .txpop _ => (4, 3)
  | .setmax _ => (4, 4)

def Statement (i : Instr) : Prop :=
  (encode i).op = commandWord (BitVec.ofNat 4 (fields i).1) 0#1 (BitVec.ofNat 3 (fields i).2)

theorem venc8 (v : BitVec 8) : Statement (.venc8 v) := by
  simp only [Statement, encode, valueCommand, fields]; decide
theorem venc16 (v : BitVec 16) : Statement (.venc16 v) := by
  simp only [Statement, encode, valueCommand, fields]; decide
theorem venc32 (v : BitVec 32) : Statement (.venc32 v) := by
  simp only [Statement, encode, valueCommand, fields]; decide
theorem venc64 (v : BitVec 64) : Statement (.venc64 v) := by
  simp only [Statement, encode, valueCommand, fields]; decide
theorem venc128 (v : BitVec 128) : Statement (.venc128 v) := by
  simp only [Statement, encode, valueCommand, fields]; decide
theorem vencN (v : Nat) : Statement (.vencN v) := by
  simp only [Statement, encode, valueCommand, fields]; decide
theorem vdec8 (s : List Byte) : Statement (.vdec8 s) := by
  simp only [Statement, encode, bytesCommand, fields]; decide
theorem vdec16 (s : List Byte) : Statement (.vdec16 s) := by
  simp only [Statement, encode, bytesCommand, fields]; decide
theorem vdec32 (s : List Byte) : Statement (.vdec32 s) := by
  simp only [Statement, encode, bytesCommand, fields]; decide
theorem vdec64 (s : List Byte) : Statement (.vdec64 s) := by
  simp only [Statement, encode, bytesCommand, fields]; decide
theorem vdec128 (s : List Byte) : Statement (.vdec128 s) := by
  simp only [Statement, encode, bytesCommand, fields]; decide
theorem vdecN (s : List Byte) : Statement (.vdecN s) := by
  simp only [Statement, encode, bytesCommand, fields]; decide
theorem fenc (p : List Byte) : Statement (.fenc p) := by
  simp only [Statement, encode, bytesCommand, fields]; decide
theorem fdec : Statement .fdec := by
  simp only [Statement, encode, valueCommand, fields]; decide
theorem rxpush (q : List Byte) : Statement (.rxpush q) := by
  simp only [Statement, encode, bytesCommand, fields]; decide
theorem txpop (c : Nat) : Statement (.txpop c) := by
  simp only [Statement, encode, countCommand, fields]; decide
theorem setmax (m : Nat) : Statement (.setmax m) := by
  simp only [Statement, encode, valueCommand, fields]; decide

end Sys2Proof.Laws.WordOfTable
end

