-- ==== Sys2Proof/Laws/Step.lean ====
section
/-! SUPPORT. Everything a command and a step can do: the commands are total, and a step is one of five things. -/

namespace Sys2Proof.Machine

/-- The effect of a command as a function of the state: no command faults or is refused. -/
def effect : Instr → State → State
  | .venc8 v, s => venc 8 v.toNat s
  | .venc16 v, s => venc 16 v.toNat s
  | .venc32 v, s => venc 32 v.toNat s
  | .venc64 v, s => venc 64 v.toNat s
  | .venc128 v, s => venc 128 v.toNat s
  | .vencN v, s => venc s.nwBits v s
  | .vdec8 bs, s => vdec 8 bs s
  | .vdec16 bs, s => vdec 16 bs s
  | .vdec32 bs, s => vdec 32 bs s
  | .vdec64 bs, s => vdec 64 bs s
  | .vdec128 bs, s => vdec 128 bs s
  | .vdecN bs, s => vdec s.nwBits bs s
  | .fenc p, s => frameEncode p s
  | .fdec, s => frameDecode s
  | .rxpush q, s => rxPush q s
  | .txpop c, s => txPop c s
  | .setmax m, s => setMax m s

theorem exec_eq_effect (i : Instr) (s : State) : exec i s = .next (effect i s) := by
  cases i <;> rfl

theorem effect_of_exec {i : Instr} {s t : State} (h : exec i s = .next t) : t = effect i s := by
  rw [exec_eq_effect] at h
  exact (Host.Outcome.next.inj h).symm

/-- What a step that answers a next state did: idled, reset the block, abandoned a command by a reset, answered a
reserved word, or executed a command. -/
theorem step_cases {s t : State} (h : step s = .next t) :
    (s.input = [] ∧ t = s) ∨
    (∃ rest, s.input = .reset :: rest ∧ t = s.applyReset rest) ∨
    (∃ c w o rest, s.input = .command c :: .reset :: rest ∧ decode s.cfg.nw c = .error (.operandsMissing w o) ∧
      t = s.applyReset rest) ∨
    (∃ c op rest, s.input = .command c :: rest ∧ decode s.cfg.nw c = .error (.reserved op) ∧
      t = ({ s with input := rest } : State).illegal) ∨
    (∃ c i rest, s.input = .command c :: rest ∧ decode s.cfg.nw c = .ok i ∧ t = effect i { s with input := rest }) := by
  unfold step nextAction at h
  cases hi : s.input with
  | nil =>
    simp only [hi] at h
    exact .inl ⟨rfl, (Host.Outcome.next.inj h).symm⟩
  | cons e rest =>
    cases e with
    | reset =>
      simp only [hi] at h
      exact .inr (.inl ⟨rest, rfl, (Host.Outcome.next.inj h).symm⟩)
    | command c =>
      simp only [hi] at h
      cases hd : decode s.cfg.nw c with
      | ok i =>
        simp only [hd] at h
        exact .inr (.inr (.inr (.inr ⟨c, i, rest, rfl, hd, effect_of_exec h⟩)))
      | error e =>
        cases e with
        | reserved op =>
          simp only [hd] at h
          exact .inr (.inr (.inr (.inl ⟨c, op, rest, rfl, hd, (Host.Outcome.next.inj h).symm⟩)))
        | operandsMissing w o =>
          simp only [hd] at h
          cases rest with
          | nil => simp at h
          | cons e' rest' =>
            cases e' with
            | command c' => simp at h
            | reset =>
              exact .inr (.inr (.inl ⟨c, w, o, rest', rfl, hd, (Host.Outcome.next.inj h).symm⟩))

end Sys2Proof.Machine
end

