-- ==== Sys2Proof/Tests/Slice0.lean ====
section
/-! SUPPORT. Tests with results from spec/95_test_vectors.md, the refusals of `WellFormed`, one decoded word per command
written out from the map of R57, and a witness for the hypotheses of each statement. -/

namespace Sys2Proof.Tests

open Sys2Proof Sys2Proof.Machine

/-! ## Helpers -/

/-- The outcome is a next state that satisfies `p`. -/
def nextWith (o : Host.Outcome State Fault Refusal) (p : State → Bool) : Bool :=
  match o with
  | .next t => p t
  | .fault _ => false
  | .refused _ => false

/-- A state of a block with `NW = 64`, finite capacities of `cap` bytes, and EBUF of the test vectors. -/
def small (cap maxLen : Nat) (pend : Pend) (rxb txb : List Byte) : State :=
  { State.resetWith { nw := .w64, rxCap := .bytes cap, txCap := .bytes cap } (Vector.replicate 19 0xAA#8) with
    maxLen := maxLen, pend := pend, rxb := rxb, txb := txb }

/-- The same with `NW = 16`. -/
def narrow (cap maxLen : Nat) (pend : Pend) (rxb txb : List Byte) : State :=
  { small cap maxLen pend rxb txb with cfg := { nw := .w16, rxCap := .bytes cap, txCap := .bytes cap } }

/-- A state with host events to come. -/
def fed (events : List HostEvent) : State := { State.reset with input := events }

def okAnswer : Response := { status := .ok, val := none, len := none, result := [] }
def okLen (n : Nat) (bs : List Byte) : Response := { status := .ok, val := none, len := some n, result := bs }
def okVal (v : BitVec 128) (c : Nat) : Response := { status := .ok, val := some v, len := some c, result := [] }
def frameAnswer (p : List Byte) : Response := { status := .frame, val := none, len := some p.length, result := p }
def bare (st : Status) (n : Option Nat) : Response := { status := st, val := none, len := n, result := [] }

/-- The responses and the four small elements after a command. -/
def shows (r : Response) (maxLen : Nat) (pend : Pend) (rxb txb : List Byte) (t : State) : Bool :=
  t.responses == [r] && t.maxLen == maxLen && t.pend == pend && t.rxb == rxb && t.txb == txb

/-! ## WellFormed: each check refuses an ill-formed term -/

theorem test_wf_vencN : Instr.wellFormed .w16 (.vencN 65536) = false ∧ Instr.WellFormed .w16 (.vencN 65535) := by decide
theorem test_wf_txpop : Instr.wellFormed .w16 (.txpop 65536) = false ∧ Instr.WellFormed .w16 (.txpop 65535) := by decide
theorem test_wf_setmax : Instr.wellFormed .w16 (.setmax 65536) = false ∧ Instr.WellFormed .w16 (.setmax 65535) := by decide
theorem test_wf_operandBytes (long : List Byte) (h : long.length = 65536) :
    [Instr.vdec8 long, .vdec16 long, .vdec32 long, .vdec64 long, .vdec128 long, .vdecN long, .fenc long,
      .rxpush long].map (Instr.wellFormed .w16) = List.replicate 8 false := by
  simp [Instr.wellFormed, FitsNative, NativeWidth.bits, h, List.replicate]
theorem test_wf_longest (long : List Byte) (h : long.length = 65535) :
    [Instr.vdec8 long, .vdec16 long, .vdec32 long, .vdec64 long, .vdec128 long, .vdecN long, .fenc long,
      .rxpush long].map (Instr.wellFormed .w16) = List.replicate 8 true := by
  simp [Instr.wellFormed, FitsNative, NativeWidth.bits, h, List.replicate]

/-! ## Decoding, word by word from the map of R57 and the operands of R59 -/

/-- A command as a test writes it: every field that the command must ignore is set to something. -/
def word (op : Byte) (val : Nat) (len : Nat) (opd : List Byte) : Command :=
  { op := op, val := BitVec.ofNat 128 val, len := BitVec.ofNat 64 len, opd := opd }

theorem test_decode_venc8 : decode .w64 (word 0b00010000#8 0x1FF 9 [1]) = .ok (.venc8 0xFF#8) := by decide
theorem test_decode_venc16 : decode .w64 (word 0b00010001#8 0x1FFFE 9 [1]) = .ok (.venc16 0xFFFE#16) := by decide
theorem test_decode_venc32 : decode .w64 (word 0b00010010#8 0x100000002 9 [1]) = .ok (.venc32 2#32) := by decide
theorem test_decode_venc64 :
    decode .w16 (word 0b00010011#8 0x10000000000000003 9 [1]) = .ok (.venc64 3#64) := by decide
theorem test_decode_venc128 :
    decode .w16 (word 0b00010100#8 (2 ^ 127 + 1) 9 [1]) = .ok (.venc128 (BitVec.ofNat 128 (2 ^ 127 + 1))) := by decide
theorem test_decode_vencN : decode .w32 (word 0b00010101#8 0x3FFFFFFFF 9 [1]) = .ok (.vencN 0xFFFFFFFF) := by decide
theorem test_decode_vdec8 : decode .w64 (word 0b00100000#8 7 2 [0xFF#8, 0x7F#8]) = .ok (.vdec8 [0xFF#8, 0x7F#8]) := by decide
theorem test_decode_vdec16 : decode .w64 (word 0b00100001#8 7 2 [0xAC#8, 0x02#8]) = .ok (.vdec16 [0xAC#8, 0x02#8]) := by
  decide
theorem test_decode_vdec32 : decode .w64 (word 0b00100010#8 7 0 []) = .ok (.vdec32 []) := by decide
theorem test_decode_vdec64 : decode .w64 (word 0b00100011#8 7 1 [0x05#8]) = .ok (.vdec64 [0x05#8]) := by decide
theorem test_decode_vdec128 : decode .w64 (word 0b00100100#8 7 1 [0x06#8]) = .ok (.vdec128 [0x06#8]) := by decide
/-- With `NW = 16` the count is the low 16 bits of the carried field. -/
theorem test_decode_vdecN : decode .w16 (word 0b00100101#8 7 0x10001 [0x07#8]) = .ok (.vdecN [0x07#8]) := by decide
theorem test_decode_fenc :
    decode .w64 (word 0b01000000#8 7 3 [0x61#8, 0x62#8, 0x63#8]) = .ok (.fenc [0x61#8, 0x62#8, 0x63#8]) := by decide
theorem test_decode_fdec : decode .w64 (word 0b01000001#8 7 9 []) = .ok .fdec := by decide
theorem test_decode_rxpush : decode .w64 (word 0b01000010#8 7 2 [0x05#8, 0x68#8]) = .ok (.rxpush [0x05#8, 0x68#8]) := by
  decide
theorem test_decode_txpop : decode .w64 (word 0b01000011#8 7 2 []) = .ok (.txpop 2) := by decide
theorem test_decode_setmax : decode .w16 (word 0b01000100#8 0x10004 9 []) = .ok (.setmax 4) := by decide
/-- The reserved words that 95_test_vectors.md section 2.4 names. -/
theorem test_decode_reserved :
    ∀ op ∈ [0x00#8, 0x16#8, 0x18#8, 0x26#8, 0x30#8, 0x45#8, 0x48#8, 0xFF#8],
      decode .w64 (word op 0 0 []) = .error (.reserved op) := by decide
theorem test_decode_missing :
    decode .w64 (word 0b01000010#8 0 2 [0x05#8]) = .error (.operandsMissing 2 1) := by decide
theorem test_decodeTableWord :
    [0x10, 0x25, 0x40, 0x41, 0x44].map (decodeTableWord 8) =
      [some (.venc8 0), some (.vdecN []), some (.fenc []), some .fdec, some (.setmax 0)] := by decide

/-! ## The varint_encoder (95_test_vectors.md section 2.1) -/

/-- "from EBUF = 19*[AA], `VENC.16 65535` leaves EBUF = `[FF FF 03] ++ 16*[AA]`". -/
theorem test_venc16_ebuf : nextWith (exec (.venc16 0xFFFF#16) State.reset) (fun t =>
    t.ebuf.toList == [0xFF#8, 0xFF#8, 0x03#8] ++ List.replicate 16 0xAA#8) = true := by decide
theorem test_venc16 : nextWith (exec (.venc16 300#16) State.reset) (fun t =>
    t.responses == [okLen 2 [0xAC#8, 0x02#8]]) = true := by decide
theorem test_venc8 : nextWith (exec (.venc8 255#8) State.reset) (fun t =>
    t.responses == [okLen 2 [0xFF#8, 0x01#8]]) = true := by decide
theorem test_venc8_zero : nextWith (exec (.venc8 0#8) State.reset) (fun t =>
    t.responses == [okLen 1 [0x00#8]]) = true := by decide
theorem test_venc32 : nextWith (exec (.venc32 268435455#32) State.reset) (fun t =>
    t.responses == [okLen 4 [0xFF#8, 0xFF#8, 0xFF#8, 0x7F#8]]) = true := by decide
theorem test_venc32_largest : nextWith (exec (.venc32 0xFFFFFFFF#32) State.reset) (fun t =>
    t.responses == [okLen 5 [0xFF#8, 0xFF#8, 0xFF#8, 0xFF#8, 0x0F#8]]) = true := by decide
/-- The source's end-to-end example (S2). -/
theorem test_venc64_largest : nextWith (exec (.venc64 18446744073709551615#64) State.reset) (fun t =>
    t.responses == [okLen 10 (List.replicate 9 0xFF#8 ++ [0x01#8])]) = true := by decide
theorem test_venc64 : nextWith (exec (.venc64 (BitVec.ofNat 64 (2 ^ 56))) State.reset) (fun t =>
    t.responses == [okLen 9 (List.replicate 8 0x80#8 ++ [0x01#8])]) = true := by decide
theorem test_venc128_ebuf : nextWith (exec (.venc128 (BitVec.ofNat 128 (2 ^ 128 - 1))) State.reset) (fun t =>
    t.ebuf.toList == List.replicate 18 0xFF#8 ++ [0x03#8]) = true := by decide
theorem test_venc128 : nextWith (exec (.venc128 (BitVec.ofNat 128 (2 ^ 126 - 1))) State.reset) (fun t =>
    t.responses == [okLen 18 (List.replicate 17 0xFF#8 ++ [0x7F#8])]) = true := by decide
theorem test_vencN : nextWith (exec (.vencN 8192) State.reset) (fun t =>
    t.responses == [okLen 2 [0x80#8, 0x40#8]]) = true := by decide
/-- P10 step 2, `NW = 16`. -/
theorem test_vencN_narrow : nextWith (exec (.vencN 65535) (narrow 9 65535 .empty [] [])) (fun t =>
    t.responses == [okLen 3 [0xFF#8, 0xFF#8, 0x03#8]] && t.ebuf.toList.take 4 == [0xFF#8, 0xFF#8, 0x03#8, 0xAA#8]) = true := by
  decide

/-! ## The varint_decoder (95_test_vectors.md section 2.2) -/

theorem test_vdec8_excess : exec (.vdec8 [0xFF#8, 0x7F#8]) State.reset =
    .next (answered State.reset (okVal 255 2)) := by rfl
theorem test_vdec8_overflow : exec (.vdec8 [0x80#8, 0x80#8, 0x00#8]) State.reset =
    .next (answered State.reset (bare .overflow none)) := by rfl
theorem test_vdec16 : exec (.vdec16 [0xAC#8, 0x02#8, 0x99#8]) State.reset =
    .next (answered State.reset (okVal 300 2)) := by rfl
theorem test_vdec16_nonminimal : exec (.vdec16 [0xFF#8, 0x80#8, 0x00#8]) State.reset =
    .next (answered State.reset (okVal 127 3)) := by rfl
theorem test_vdec32 : exec (.vdec32 [0x80#8, 0x80#8, 0x80#8, 0x80#8]) State.reset =
    .next (answered State.reset (bare .insufficient none)) := by rfl
theorem test_vdec32_excess : exec (.vdec32 [0xFF#8, 0xFF#8, 0xFF#8, 0xFF#8, 0x7F#8]) State.reset =
    .next (answered State.reset (okVal 4294967295 5)) := by rfl
/-- The source's overflow example (S4). -/
theorem test_vdec64_overflow : exec (.vdec64 (List.replicate 11 0x80#8)) State.reset =
    .next (answered State.reset (bare .overflow none)) := by rfl
theorem test_vdec64 : exec (.vdec64 (List.replicate 9 0xFF#8 ++ [0x01#8, 0xAA#8])) State.reset =
    .next (answered State.reset (okVal 18446744073709551615 10)) := by rfl
theorem test_vdec128 : exec (.vdec128 (List.replicate 9 0x80#8 ++ [0x02#8])) State.reset =
    .next (answered State.reset (okVal 18446744073709551616 10)) := by rfl
theorem test_vdec128_overflow : exec (.vdec128 (List.replicate 19 0x80#8)) State.reset =
    .next (answered State.reset (bare .overflow none)) := by rfl
/-- P10 step 1, `NW = 16`. -/
theorem test_vdecN_narrow : exec (.vdecN [0x80#8, 0x80#8, 0x80#8, 0x01#8]) (narrow 9 65535 .empty [] []) =
    .next (answered (narrow 9 65535 .empty [] []) (bare .overflow none)) := by rfl
theorem test_vdecN : exec (.vdecN [0x80#8, 0x40#8, 0x01#8, 0x01#8]) State.reset =
    .next (answered State.reset (okVal 8192 2)) := by rfl

/-! ## The frame buffer (95_test_vectors.md sections 2.3, 2.4, 3) -/

/-- Row 4, P2 step 3: the length is kept in PEND and its prefix is removed. -/
theorem test_fdec_row4 : nextWith (exec .fdec (small 9 16 .empty [0x05#8, 0x68#8, 0x65#8] []))
    (shows (bare .none (some 3)) 16 (.awaitingPayload 5) [0x68#8, 0x65#8] []) = true := by decide
/-- Row 6: the bound was lowered while a length is pending. -/
theorem test_fdec_row6 : nextWith (exec .fdec (small 9 5 (.awaitingPayload 10) [0x01#8, 0x02#8] []))
    (shows (bare .tooLarge (some 10)) 5 .empty [0x01#8, 0x02#8] []) = true := by decide
theorem test_fenc : nextWith (exec (.fenc [0x61#8, 0x62#8, 0x63#8]) (small 4 3 .empty [] []))
    (shows (okLen 4 []) 3 .empty [] [0x03#8, 0x61#8, 0x62#8, 0x63#8]) = true := by decide
/-- P8 step 7: the payload fits but its prefix does not. -/
theorem test_fenc_noSpace : nextWith (exec (.fenc [9#8, 9#8, 9#8, 9#8]) (small 4 16 .empty [] []))
    (shows (bare .noSpace none) 16 .empty [] []) = true := by decide
theorem test_rxpush : nextWith (exec (.rxpush [0x65#8]) (small 4 16 .empty [0x05#8, 0x68#8] []))
    (shows okAnswer 16 .empty [0x05#8, 0x68#8, 0x65#8] []) = true := by decide
/-- P8 step 5. -/
theorem test_rxpush_noSpace : nextWith (exec (.rxpush [5#8]) (small 4 16 (.awaitingPayload 6) [1#8, 2#8, 3#8, 4#8] []))
    (shows (bare .noSpace none) 16 (.awaitingPayload 6) [1#8, 2#8, 3#8, 4#8] []) = true := by decide
theorem test_txpop : nextWith (exec (.txpop 2) (small 9 16 .empty [] [0x03#8, 0x61#8, 0x62#8]))
    (shows (okLen 2 [0x03#8, 0x61#8]) 16 .empty [] [0x62#8]) = true := by decide
theorem test_txpop_all : nextWith (exec (.txpop 100) (small 9 16 .empty [] [0x62#8, 0x63#8, 0x00#8]))
    (shows (okLen 3 [0x62#8, 0x63#8, 0x00#8]) 16 .empty [] []) = true := by decide
theorem test_setmax : nextWith (exec (.setmax 0) (small 9 16 (.awaitingPayload 5) [7#8] [8#8]))
    (shows okAnswer 0 (.awaitingPayload 5) [7#8] [8#8]) = true := by decide

/-! ## Steps -/

/-- A row of the table runs as the first command after reset. -/
theorem test_step_withFetchWord : nextWith (step (State.reset.withFetchWord 8 0x10)) (fun t =>
    t.responses == [okLen 1 [0x00#8]] && t.input == []) = true := by decide
/-- P3 steps 1 to 3 of the frame buffer, as one event each: here the first. -/
theorem test_step_setmax : nextWith (step (fed [.command (word 0x44#8 4 0 []), .reset])) (fun t =>
    t.maxLen == 4 && t.input == [.reset] && t.responses == [okAnswer]) = true := by decide
theorem test_step_reserved : nextWith (step (fed [.command (word 0x18#8 0 3 [1#8])])) (fun t =>
    t.responses == [bare .illegal none] && t.maxLen == 2 ^ 64 - 1 && t.input == []) = true := by decide
theorem test_step_reset :
    nextWith (step { small 9 16 (.awaitingPayload 5) [7#8] [8#8] with input := [.reset] })
      (fun t => t.maxLen == 2 ^ 64 - 1 && t.pend == .empty && t.rxb == [] && t.txb == [] && t.responses == [] &&
        t.resets == 1) = true := by decide
theorem test_step_stuck : (step (fed [.command (word 0x42#8 0 2 [1#8])]) matches .fault .operandsNeverSupplied) = true := by
  decide
theorem test_step_abandoned : nextWith (step (fed [.command (word 0x42#8 0 2 [1#8]), .reset])) (fun t =>
    t.rxb == [] && t.responses == [] && t.input == []) = true := by decide

/-! ## Outputs -/

/-- Byte `i` stands in bits `[8i+7:8i]` (R31): byte 0 lowest. -/
theorem test_ebufOut : ((memWrite (Vector.replicate 19 0#8) 0 [0x12#8, 0x34#8]).toList |> packBytes) = 0x3412 := by decide
theorem test_rxCount_saturates (long : List Byte) (h : long.length = 65536) :
    (narrow 70000 65535 .empty long []).rxCount = 65535 := by
  simp [State.rxCount, State.nwBits, narrow, small, NativeWidth.bits, h]

/-! ## Witnesses: a state and operands that meet the hypotheses of each statement, at the ends of their ranges -/

/-- CommandMapDecodes: `cmd_len` is the number of bytes offered; and the field of 64 bits can hold more than `NW` bits. -/
theorem witness_CommandMapDecodes :
    (∀ op ∈ [0x20#8, 0x21#8, 0x22#8, 0x23#8, 0x24#8, 0x25#8, 0x40#8, 0x42#8],
      ∃ c : Command, c.op = op ∧ c.len.toNat % 2 ^ NativeWidth.w16.bits = c.opd.length ∧ c.opd = [7#8]) ∧
    (∃ c : Command, c.op = 0x42#8 ∧ c.len = 0x10000#64 ∧ c.len.toNat % 2 ^ NativeWidth.w16.bits = c.opd.length) :=
  ⟨fun op _ => ⟨word op 0 1 [7#8], rfl, rfl, rfl⟩, ⟨word 0x42#8 0 0x10000 [], rfl, rfl, by decide⟩⟩

/-- SurplusOperandBytesAreNotTaken: `cmd_len` equal to and below the bytes kept, with bytes dropped. -/
theorem witness_SurplusOperandBytesAreNotTaken :
    (word 0x42#8 0 1 [7#8, 8#8]).len.toNat % 2 ^ NativeWidth.w16.bits ≤ 1 ∧
    (word 0x42#8 0 1 [7#8, 8#8]).opd.take 1 ≠ (word 0x42#8 0 1 [7#8, 8#8]).opd := by decide

theorem witness_DecodeOfEncodeIsIdentity :
    Instr.WellFormed .w16 (.vencN 65535) ∧ Instr.WellFormed .w64 (.setmax (2 ^ 64 - 1)) ∧
    Instr.WellFormed .w16 (.vdec8 [0xFF#8]) ∧ Instr.WellFormed .w32 .fdec := by decide

theorem witness_DecodedCommandIsWellFormed : decode .w16 (word 0x43#8 0 0x1FFFF []) = .ok (.txpop 0xFFFF) := by decide

/-- ReservedWordAnswersIllegal: one word for each reason, and the neighbours that are not reserved. -/
theorem witness_ReservedWordAnswersIllegal :
    (fed [.command (word 0x45#8 0 3 [])]).input = .command (word 0x45#8 0 3 []) :: [] ∧
    (word 0x45#8 0 3 []).opd = [] ∧
    (word 0x45#8 0 1 [7#8]).opd.length = (word 0x45#8 0 1 [7#8]).len.toNat % 2 ^ State.reset.nwBits ∧
    (∀ op ∈ [0x00#8, 0x08#8, 0x16#8, 0x27#8, 0x30#8, 0x45#8, 0x47#8, 0x4C#8, 0xFF#8], ReservedWord op) ∧
    (∀ op ∈ [0x10#8, 0x15#8, 0x20#8, 0x25#8, 0x40#8, 0x44#8], ¬ ReservedWord op) := by decide

theorem witness_StepExecutesTheDecodedCommand :
    (fed [.command (word 0x41#8 0 0 [])]).input = [.command (word 0x41#8 0 0 [])] ∧
    decode State.reset.cfg.nw (word 0x41#8 0 0 []) = .ok .fdec := by decide

theorem witness_StepIdlesWithoutHostEvent : State.reset.input = [] := by decide

/-- OnlyAnUnsuppliedCommandStops: both sides of the equivalence happen, at one byte short and at none short. -/
theorem witness_OnlyAnUnsuppliedCommandStops :
    (step (fed [.command (word 0x40#8 0 1 [])]) matches .fault .operandsNeverSupplied) = true ∧
    (step (fed [.command (word 0x40#8 0 1 [9#8])]) matches .next _) = true := by decide

theorem witness_TakenCommandGivesOneResponse :
    nextWith (step (fed [.command (word 0x41#8 0 0 [])])) (fun t => t.responses.length == 1) = true ∧
    nextWith (step (fed [.command (word 0x40#8 0 1 []), .reset])) (fun t => t.resets == 1) = true := by decide

theorem witness_ResetLeavesTheResetState : (fed [.reset]).input = .reset :: [] := by decide

theorem witness_ResetAbandonsTheCommandInProgress :
    decode (fed []).cfg.nw (word 0x40#8 0 1 []) = .error (.operandsMissing 1 0) ∧
    (fed [.command (word 0x40#8 0 1 []), .reset]).input = .command (word 0x40#8 0 1 []) :: .reset :: [] := by decide

theorem witness_ResetStateIsLegal : (Capacity.bytes 1).Legal ∧ Capacity.inf.Legal := by simp

/-- StepKeepsStateLegal and the statements about legal states: a legal state with full queues, a pending length at the
largest value and the largest bound, that steps. -/
theorem witness_legalState :
    (small 1 (2 ^ 64 - 1) (.awaitingPayload (2 ^ 64 - 1)) [1#8] [2#8]).WF ∧
    (step (small 1 (2 ^ 64 - 1) (.awaitingPayload (2 ^ 64 - 1)) [1#8] [2#8]) matches .next _) = true := by
  refine ⟨⟨?_, ?_, ?_, ?_, ?_, ?_⟩, by decide⟩ <;> simp [small, State.resetWith, State.nwBits, NativeWidth.bits]

theorem witness_StepKeepsStateLegal :
    ∃ s t, s.WF ∧ step s = .next t ∧ t ≠ s := by
  refine ⟨(small 2 4 .empty [1#8] []).withCommand (word 0x41#8 0 0 []), _, ?_, rfl, by decide⟩
  refine ⟨?_, ?_, ?_, ?_, ?_, ?_⟩ <;>
    simp [small, State.withCommand, State.resetWith, State.nwBits, NativeWidth.bits]

theorem witness_StepKeepsTheParameters :
    (step (fed [.command (word 0x44#8 4 0 [])]) matches .next _) = true := by decide

theorem witness_StatusOutputsShowTheState :
    (small 4 4 .empty [] []).pend = .empty ∧ (small 4 4 (.awaitingPayload 4) [] []).pend = .awaitingPayload 4 := by decide

/-- MemReadAndMemWrite: a read of the whole sequence and of nothing, a write of all of EBUF and of its last byte. -/
theorem witness_MemReadAndMemWrite :
    0 + 2 ≤ [1#8, 2#8].length ∧ 2 + 0 ≤ [1#8, 2#8].length ∧ 0 + (List.replicate 19 1#8).length ≤ 19 ∧
    18 + [1#8].length ≤ 19 := by decide

theorem witness_EncoderCommandsWriteTheCode :
    ∀ op ∈ [0x10#8, 0x11#8, 0x12#8, 0x13#8, 0x14#8, 0x15#8], ∃ c : Command, c.op = op ∧ c.val = BitVec.allOnes 128 :=
  fun op _ => ⟨{ op := op, val := BitVec.allOnes 128, len := 0, opd := [] }, rfl, rfl⟩

/-- EncodedLengthFormula, and every other statement over a value of a width: the smallest and the largest value. -/
theorem witness_valueOfWidth (nw : NativeWidth) (w : Width) : 0 < 2 ^ w.bits nw ∧ 2 ^ w.bits nw - 1 < 2 ^ w.bits nw := by
  have := Nat.two_pow_pos (w.bits nw)
  omega

theorem witness_EncodedBytesCarryTheGroups :
    (2 ^ 128 - 1) < 2 ^ Width.w128.bits .w64 ∧ (enc (Width.w128.bits .w64) (2 ^ 128 - 1))[18]? = some 0x03#8 ∧
    (enc (Width.w128.bits .w64) (2 ^ 128 - 1)).length = 19 ∧ (enc (Width.w8.bits .w64) 0)[0]? = some 0x00#8 := by decide

/-- EncodingIgnoresTheWidth, WiderDecodeOfNarrowerCode: the largest value of the narrower width; equal widths too. -/
theorem witness_EncodingIgnoresTheWidth :
    255 < 2 ^ Width.w8.bits .w16 ∧ Width.w8.bits .w16 ≤ Width.w128.bits .w16 ∧
    65535 < 2 ^ Width.w16.bits .w16 ∧ Width.w16.bits .w16 ≤ Width.native.bits .w16 := by decide

theorem witness_EncoderIgnoresTheFrameBuffer :
    (∀ i ∈ [Instr.venc8 1#8, .venc16 1#16, .venc32 1#32, .venc64 1#64, .venc128 1#128, .vencN 1],
      (exec i State.reset matches .next _) = true) ∧
    (exec (.fenc [1#8]) State.reset matches .next _) = true := by decide

theorem witness_DecoderCommandsAnswerTheDecoding :
    ∀ op ∈ [0x20#8, 0x21#8, 0x22#8, 0x23#8, 0x24#8, 0x25#8], ∃ c : Command,
      c.op = op ∧ c.len.toNat % 2 ^ State.reset.nwBits = [1#8].length ∧ c.opd = [1#8] :=
  fun op _ => ⟨word op 0 1 [1#8], rfl, rfl, rfl⟩

/-- DecodeOutcomeByTerminator: each outcome at its boundary: the terminator in the last permitted byte, and one byte
less than `maxlen` and exactly `maxlen` continued bytes. -/
theorem witness_DecodeOutcomeByTerminator :
    dec (Width.w16.bits .w64) [0xFF#8, 0xFF#8, 0x03#8] = .ok 65535 3 ∧
    dec (Width.w16.bits .w64) [0xFF#8, 0xFF#8] = .insufficient ∧
    dec (Width.w16.bits .w64) [0xFF#8, 0xFF#8, 0xFF#8] = .overflow ∧
    dec (Width.w16.bits .w64) [] = .insufficient := by decide

theorem witness_NonMinimalInputIsAccepted :
    AllContinue [0x80#8] ∧ [0x80#8].length < maxlen (Width.w8.bits .w64) ∧
    AllContinue (List.replicate 18 0xFF#8) ∧ (List.replicate 18 0xFF#8).length < maxlen (Width.w128.bits .w64) := by
  refine ⟨by unfold AllContinue; decide, by decide, by unfold AllContinue; decide, by decide⟩

theorem witness_DecodeReadsOnlyTheNeededBytes :
    dec (Width.w8.bits .w64) [0xFF#8, 0x01#8, 0xAA#8] = .ok 255 2 ∧ 255 < 2 ^ Width.w8.bits .w64 := by decide

theorem witness_InsufficientIsRecoverable :
    dec (Width.w8.bits .w64) [] = .insufficient ∧ dec (Width.w64.bits .w64) (List.replicate 9 0xFF#8) = .insufficient := by
  decide

theorem witness_OverflowIsNeverUndone : dec (Width.w64.bits .w64) (List.replicate 10 0x80#8) = .overflow := by decide

theorem witness_ProperPrefixesAreInsufficient :
    255 < 2 ^ Width.w8.bits .w64 ∧ 0 < (enc (Width.w8.bits .w64) 255).length ∧
    1 < (enc (Width.w8.bits .w64) 255).length ∧ ¬ 2 < (enc (Width.w8.bits .w64) 255).length := by decide

/-- RxpushAppendsAllOrNothing: exactly the free space fits, one byte more does not, and an infinite buffer. -/
theorem witness_RxpushAppendsAllOrNothing :
    (small 4 9 .empty [1#8, 2#8] []).cfg.rxCap = .bytes 4 ∧ State.reset.cfg.rxCap = .inf ∧
    [3#8, 4#8].length ≤ 4 - (small 4 9 .empty [1#8, 2#8] []).rxb.length ∧
    [3#8, 4#8, 5#8].length > 4 - (small 4 9 .empty [1#8, 2#8] []).rxb.length ∧
    (word 0x42#8 0 1 [1#8]).len.toNat % 2 ^ State.reset.nwBits = [1#8].length := by decide

/-- FdecFollowsTheStateTable: each of the eight rows is met, rows 3 to 8 at the boundary of their conditions. -/
theorem witness_FdecFollowsTheStateTable :
    (∃ t, FdecRow (small 9 4 .empty [] []) 1 t) ∧
    (∃ t, FdecRow (small 10 4 .empty (List.replicate 10 0x80#8) []) 2 t) ∧
    (∃ t, FdecRow (small 9 4 .empty [5#8, 1#8, 2#8, 3#8, 4#8, 5#8] []) 3 t) ∧
    (∃ t, FdecRow (small 9 4 .empty [4#8, 1#8, 2#8, 3#8] []) 4 t) ∧
    (∃ t, FdecRow (small 9 4 .empty [4#8, 1#8, 2#8, 3#8, 4#8] []) 5 t) ∧
    (∃ t, FdecRow (small 9 4 (.awaitingPayload 5) [] []) 6 t) ∧
    (∃ t, FdecRow (small 9 4 (.awaitingPayload 4) [1#8, 2#8, 3#8] []) 7 t) ∧
    (∃ t, FdecRow (small 9 4 (.awaitingPayload 4) [1#8, 2#8, 3#8, 4#8] []) 8 t) := by
  refine ⟨⟨_, .row1 rfl (by decide)⟩, ⟨_, .row2 rfl (by decide)⟩, ⟨_, .row3 5 1 rfl (by decide) (by decide)⟩,
    ⟨_, .row4 4 1 rfl (by decide) (by decide) (by decide)⟩, ⟨_, .row5 4 1 rfl (by decide) (by decide) (by decide)⟩,
    ⟨_, .row6 5 rfl (by decide)⟩, ⟨_, .row7 4 rfl (by decide) (by decide)⟩,
    ⟨_, .row8 4 rfl (by decide) (by decide)⟩⟩

/-- FdecEnforcesTheBound: a frame at the bound is returned, just decoded and pending, and a length one above it is too
large, in both phases. -/
theorem witness_FdecEnforcesTheBound :
    nextWith (exec .fdec (small 9 2 .empty [2#8, 1#8, 7#8] [])) (fun t => t.responses == [frameAnswer [1#8, 7#8]]) = true ∧
    dec 64 [2#8, 1#8, 7#8] = .ok 2 1 ∧
    nextWith (exec .fdec (small 9 2 (.awaitingPayload 2) [1#8, 7#8] [])) (fun t =>
      t.responses == [frameAnswer [1#8, 7#8]]) = true ∧
    nextWith (exec .fdec (small 9 2 .empty [2#8] [])) (fun t => t.pend == .awaitingPayload 2) = true ∧
    dec 64 [3#8] = .ok 3 1 ∧ (small 9 2 .empty [3#8] []).maxLen < 3 ∧
    (small 9 2 (.awaitingPayload 3) [] []).maxLen < 3 := by decide

/-- FencAppendsTheWholeFrameOrNothing: a payload one above the bound; at the bound with one byte too few of space, with
exactly enough, and with an infinite buffer. -/
theorem witness_FencAppendsTheWholeFrameOrNothing :
    [1#8, 2#8].length < 2 ^ (small 2 1 .empty [] []).nwBits ∧
    [1#8, 2#8].length > (small 2 1 .empty [] []).maxLen ∧
    [1#8, 2#8].length ≤ (small 2 2 .empty [] []).maxLen ∧
    (enc 64 2).length + 2 > 2 - (small 2 2 .empty [] []).txb.length ∧
    (enc 64 2).length + 2 ≤ 3 - (small 3 2 .empty [] []).txb.length ∧
    (small 3 2 .empty [] []).cfg.txCap = .bytes 3 ∧ State.reset.cfg.txCap = .inf ∧
    (word 0x40#8 0 1 [1#8]).len.toNat % 2 ^ State.reset.nwBits = [1#8].length := by decide

/-- FramingRoundTripOverEverySplit: the frame of "hi" in five pieces (95_test_vectors.md section 2.5, last row), in a
buffer that just holds it, with the bound at its length. -/
theorem witness_FramingRoundTripOverEverySplit :
    (small 3 2 .empty [] []).pend = .empty ∧ (small 3 2 .empty [] []).rxb = [] ∧
    [0x68#8, 0x69#8].length ≤ (small 3 2 .empty [] []).maxLen ∧
    [0x68#8, 0x69#8].length < 2 ^ (small 3 2 .empty [] []).nwBits ∧
    (enc (small 3 2 .empty [] []).nwBits 2).length + 2 ≤ 3 ∧
    [[], [0x02#8], [], [0x68#8, 0x69#8], []].flatten = enc (small 3 2 .empty [] []).nwBits 2 ++ [0x68#8, 0x69#8] ∧
    nextWith (pushPieces [[], [0x02#8], [], [0x68#8, 0x69#8], []] (small 3 2 .empty [] [])) (fun t =>
      t.responses == [okAnswer, bare .none (some 0), okAnswer, bare .none (some 2), okAnswer, bare .none (some 2), okAnswer,
        frameAnswer [0x68#8, 0x69#8], okAnswer, bare .none (some 0)]) = true := by
  decide

/-- QueuesAreFirstInFirstOut, EachCommandWritesOnlyItsOwnState: commands that take and append, and the outcomes of the
same commands that do neither. -/
theorem witness_QueuesAreFirstInFirstOut :
    nextWith (exec (.txpop 1) (small 9 9 .empty [] [1#8, 2#8])) (shows (okLen 1 [1#8]) 9 .empty [] [2#8]) = true ∧
    nextWith (exec (.fenc [7#8]) (small 3 9 .empty [] [1#8])) (shows (okLen 2 []) 9 .empty [] [1#8, 1#8, 7#8]) = true ∧
    nextWith (exec (.fenc [7#8]) (small 2 9 .empty [] [1#8])) (shows (bare .noSpace none) 9 .empty [] [1#8]) = true ∧
    nextWith (exec (.rxpush [7#8]) (small 2 9 .empty [1#8] [])) (shows okAnswer 9 .empty [1#8, 7#8] []) = true ∧
    nextWith (exec (.rxpush [7#8]) (small 1 9 .empty [1#8] [])) (shows (bare .noSpace none) 9 .empty [1#8] []) = true ∧
    nextWith (exec .fdec (small 9 9 .empty [1#8, 7#8, 8#8] [])) (shows (frameAnswer [7#8]) 9 .empty [8#8] []) = true ∧
    nextWith (exec .fdec (small 9 9 .empty [1#8] [])) (shows (bare .none (some 1)) 9 (.awaitingPayload 1) [] []) = true ∧
    nextWith (exec .fdec (small 9 9 .empty [0x80#8] [])) (shows (bare .none (some 0)) 9 .empty [0x80#8] []) = true := by
  decide

/-- ErrorsLeaveTheStateOfTheTable: every error outcome happens. -/
theorem witness_ErrorsLeaveTheStateOfTheTable :
    decode .w64 (word 0x48#8 0 0 []) = .error (.reserved 0x48#8) ∧
    nextWith (exec (.vdec8 [0x80#8]) (small 4 4 .empty [] [])) (fun t => t.responses == [bare .insufficient none]) = true ∧
    nextWith (exec (.vdec8 [0x80#8, 0x80#8]) (small 4 4 .empty [] [])) (fun t => t.responses == [bare .overflow none]) = true ∧
    nextWith (exec (.fenc [1#8, 1#8]) (small 4 1 .empty [] [])) (fun t => t.responses == [bare .tooLarge none]) = true ∧
    nextWith (exec (.rxpush [1#8, 1#8]) (small 1 1 .empty [] [])) (fun t => t.responses == [bare .noSpace none]) = true ∧
    nextWith (exec .fdec (small 4 1 .empty [2#8] [])) (fun t => t.responses == [bare .tooLarge (some 2)]) = true ∧
    nextWith (exec .fdec (small 4 1 (.awaitingPayload 2) [] [])) (fun t => t.responses == [bare .tooLarge (some 2)]) = true ∧
    nextWith (exec .fdec (small 4 1 .empty [0x80#8] [])) (fun t => t.responses == [bare .none (some 0)]) = true ∧
    nextWith (exec .fdec (small 4 1 .empty [1#8] [])) (fun t => t.responses == [bare .none (some 1)]) = true ∧
    nextWith (exec .fdec (small 4 1 (.awaitingPayload 1) [] [])) (fun t => t.responses == [bare .none (some 1)]) = true := by
  decide

theorem witness_RepeatedFdecChangesNothing :
    exec .fdec (small 9 9 .empty [2#8] []) = .next (answered (small 9 9 (.awaitingPayload 2) [] []) (bare .none (some 2))) ∧
    exec .fdec (small 10 9 .empty (List.replicate 10 0x80#8) []) =
      .next (answered (small 10 9 .empty (List.replicate 10 0x80#8) []) (bare .overflow none)) := ⟨rfl, rfl⟩

/-- UndersizedReceiveBufferIsStuck: P8 after step 4, and a pending length one above the capacity. -/
theorem witness_UndersizedReceiveBufferIsStuck :
    (small 4 5 (.awaitingPayload 5) [1#8, 2#8, 3#8, 4#8] []).cfg.rxCap = .bytes 4 ∧
    (small 4 5 (.awaitingPayload 5) [1#8, 2#8, 3#8, 4#8] []).pend = .awaitingPayload 5 ∧ 4 < 5 ∧
    5 ≤ (small 4 5 (.awaitingPayload 5) [1#8, 2#8, 3#8, 4#8] []).maxLen ∧
    (small 4 5 (.awaitingPayload 5) [1#8, 2#8, 3#8, 4#8] []).rxb.length = 4 ∧ [5#8] ≠ [] := by decide

/-- NoneLeavesRoomWhenSized: a buffer of exactly `maxlen(N)` bytes, the bound at the capacity, one byte short. -/
theorem witness_NoneLeavesRoomWhenSized :
    (small 10 10 (.awaitingPayload 10) (List.replicate 9 1#8) []).WF ∧
    (small 10 10 (.awaitingPayload 10) (List.replicate 9 1#8) []).ReceiveSized ∧
    nextWith (exec .fdec (small 10 10 (.awaitingPayload 10) (List.replicate 9 1#8) [])) (fun t =>
      t.responses == [bare .none (some 1)]) = true := by
  refine ⟨⟨?_, ?_, ?_, ?_, ?_, ?_⟩, ⟨?_, ?_⟩, by decide⟩ <;>
    simp [small, State.resetWith, State.nwBits, NativeWidth.bits, maxlen]

theorem witness_AllOnesBoundIsUnbounded :
    State.reset.WF ∧ State.reset.maxLen = 2 ^ State.reset.nwBits - 1 ∧ Instr.WellFormed State.reset.cfg.nw .fdec := by
  refine ⟨⟨?_, ?_, ?_, ?_, ?_, ?_⟩, by decide, by decide⟩ <;>
    simp [State.reset, Config.default, State.resetWith, State.nwBits, NativeWidth.bits]

end Sys2Proof.Tests
end

section
/-! PROOFS. The status outputs (R20) as functions of the state: the tag and the length of PEND, and the packing of EBUF. -/

namespace Sys2Proof.Machine

theorem State.stPending_of_empty {s : State} (h : s.pend = .empty) : s.stPending = 0#1 := by
  simp [State.stPending, Pend.isPending, h]

theorem State.stPending_of_awaitingPayload {s : State} {n : Nat} (h : s.pend = .awaitingPayload n) :
    s.stPending = 1#1 := by
  simp [State.stPending, Pend.isPending, h]

theorem State.stPlen_of_awaitingPayload {s : State} {n : Nat} (h : s.pend = .awaitingPayload n) :
    s.stPlen = some n := by
  simp [State.stPlen, h]

theorem packBytes_lt (l : List Byte) : packBytes l < 256 ^ l.length := by
  induction l with
  | nil => simp [packBytes]
  | cons b t ih =>
    have hb : b.toNat < 256 := b.isLt
    rw [packBytes, List.length_cons, Nat.pow_succ]
    omega

/-- Digit `i` in base 256 of the packed number is byte `i`: dividing by 256 takes the first byte off. -/
theorem packBytes_div_mod (l : List Byte) (i : Nat) (h : i < l.length) :
    packBytes l / 256 ^ i % 256 = l[i].toNat := by
  induction l generalizing i with
  | nil => simp at h
  | cons b t ih =>
    have hb : b.toNat < 256 := b.isLt
    rw [packBytes]
    cases i with
    | zero =>
      rw [List.getElem_cons_zero]
      omega
    | succ j =>
      have htail : (b.toNat + 256 * packBytes t) / 256 = packBytes t := by omega
      rw [Nat.pow_succ', ← Nat.div_div_eq_div_mul, htail, List.getElem_cons_succ]
      exact ih j (Nat.lt_of_succ_lt_succ h)

/-- The 19 bytes of EBUF fit in the 152 bits of the output. -/
theorem State.toNat_ebufOut (s : State) : s.ebufOut.toNat = packBytes s.ebuf.toList := by
  have hlt := packBytes_lt s.ebuf.toList
  rw [Vector.length_toList] at hlt
  rw [State.ebufOut, BitVec.toNat_ofNat, Nat.mod_eq_of_lt (by omega)]

theorem State.extractLsb'_ebufOut (s : State) (i : Fin 19) :
    s.ebufOut.extractLsb' (8 * i.val) 8 = s.ebuf[i] := by
  apply BitVec.eq_of_toNat_eq
  have hi : i.val < s.ebuf.toList.length := by simp
  calc (s.ebufOut.extractLsb' (8 * i.val) 8).toNat
      = packBytes s.ebuf.toList / 256 ^ i.val % 256 := by
        rw [BitVec.extractLsb'_toNat, State.toNat_ebufOut, Nat.shiftRight_eq_div_pow, Nat.pow_mul]
    _ = s.ebuf[i].toNat := by
        rw [packBytes_div_mod _ _ hi, Vector.getElem_toList, Fin.getElem_fin]

end Sys2Proof.Machine

open Sys2Proof.Machine in
/-- Settles O16: the outputs read the tag and the length of PEND, and byte `i` of EBUF is digit `i` of `ebuf` in base
256; the other three outputs are defined as R20 words them. -/
theorem statusOutputsShowTheState : Obligations.StatusOutputsShowTheState := fun s =>
  ⟨State.stPending_of_empty,
    fun _ h => ⟨State.stPending_of_awaitingPayload h, State.stPlen_of_awaitingPayload h⟩,
    rfl, rfl, rfl, s.extractLsb'_ebufOut⟩
end

section
/-! PROOFS. The step that takes a reset event (R180), and the state after it (R21). -/

namespace Sys2Proof.Machine

theorem step_of_reset {s : State} {rest : List HostEvent} (h : s.input = .reset :: rest) :
    step s = .next (s.applyReset rest) := by
  simp [step, nextAction, h]

end Sys2Proof.Machine

open Sys2Proof.Machine in
/-- Settles O11: a reset event answers `applyReset`, whose fields are those of R21, and `State.reset` is R21's state by
definition. -/
theorem resetLeavesTheResetState : Obligations.ResetLeavesTheResetState :=
  ⟨fun s rest h => ⟨s.applyReset rest, step_of_reset h, s.applyReset_pend rest, s.applyReset_maxLen rest,
      s.applyReset_rxb rest, s.applyReset_txb rest⟩,
    rfl, rfl, rfl, rfl⟩
end

section
/-! PROOFS. `MemRead` and `MemWrite` byte by byte (R38): inside the range read or written, and outside it. -/

namespace Sys2Proof.Machine

theorem memRead_zero (b : List Byte) (off : Nat) : memRead b off 0 = [] := by
  simp [memRead]

theorem memRead_length_of_le {b : List Byte} {off n : Nat} (h : off + n ≤ b.length) : (memRead b off n).length = n := by
  rw [memRead_length]
  omega

theorem memRead_getElem? (b : List Byte) (off : Nat) {n k : Nat} (h : k < n) :
    (memRead b off n)[k]? = b[off + k]? := by
  rw [memRead, List.getElem?_take_of_lt h, List.getElem?_drop]

theorem memWrite_getElem_inside (v : Vector Byte 19) {off : Nat} {e : List Byte} {i : Fin 19} (hlo : off ≤ i.val)
    (hhi : i.val < off + e.length) : some (memWrite v off e)[i] = e[i.val - off]? := by
  have hk : i.val - off < e.length := by omega
  rw [memWrite_getElem, if_pos hlo, List.getElem?_eq_getElem hk, Option.getD_some]

theorem memWrite_getElem_outside (v : Vector Byte 19) {off : Nat} {e : List Byte} {i : Fin 19}
    (h : i.val < off ∨ off + e.length ≤ i.val) : (memWrite v off e)[i] = v[i] := by
  rw [memWrite_getElem]
  obtain hbefore | hafter := h
  · rw [if_neg (Nat.not_le.mpr hbefore)]
  · have hk : e.length ≤ i.val - off := by omega
    rw [List.getElem?_eq_none hk, Option.getD_none, ite_self]

end Sys2Proof.Machine

open Sys2Proof.Machine in
/-- Settles O18: a read is a `take` of a `drop`; a written EBUF answers at each index as `memWrite_getElem` says, by the
cases inside and outside the written range. -/
theorem memReadAndMemWrite : Obligations.MemReadAndMemWrite :=
  ⟨fun b off _ h => ⟨memRead_length_of_le h, fun _ hk => memRead_getElem? b off hk, memRead_zero b off⟩,
    fun v _ _ _ => ⟨fun _ hlo hhi => memWrite_getElem_inside v hlo hhi, fun _ h => memWrite_getElem_outside v h⟩⟩
end

section
/-! PROOFS. The decoder as a function of the fields of the command word (R57): the part each class selects, which words
are reserved, and what the step does with a reserved word (R58). -/

namespace Sys2Proof.Machine

theorem zField_ne_zero_iff (op : Byte) : zField op ≠ 0#1 ↔ op[3] = true := by
  revert op
  decide

theorem toNat_classField (op : Byte) : (classField op).toNat = op.toNat / 16 := by
  have hop : op.toNat < 256 := op.isLt
  rw [classField, BitVec.extractLsb'_toNat, Nat.shiftRight_eq_div_pow]
  omega

theorem toNat_selField (op : Byte) : (selField op).toNat = op.toNat % 8 := by
  rw [selField, BitVec.extractLsb'_toNat, Nat.shiftRight_zero]

theorem withOperandBytes_ne_reserved (nw : NativeWidth) (c : Command) (f : List Byte → Instr) (op : Byte) :
    withOperandBytes nw c f ≠ .error (.reserved op) := by
  obtain ⟨-, h⟩ | ⟨-, h⟩ := withOperandBytes_cases nw c f <;> simp [h]

theorem decodeEncoder_eq_reserved_iff (nw : NativeWidth) (c : Command) (op : Byte) :
    decodeEncoder nw c = .error (.reserved op) ↔ 6 ≤ (selField c.op).toNat ∧ c.op = op := by
  unfold decodeEncoder
  split
  case h_7 h0 h1 h2 h3 h4 h5 =>
    have hsel : 6 ≤ (selField c.op).toNat := by simp only [imp_false] at *; omega
    simp [hsel]
  all_goals simp [*]

theorem decodeDecoder_eq_reserved_iff (nw : NativeWidth) (c : Command) (op : Byte) :
    decodeDecoder nw c = .error (.reserved op) ↔ 6 ≤ (selField c.op).toNat ∧ c.op = op := by
  unfold decodeDecoder
  split
  case h_7 h0 h1 h2 h3 h4 h5 =>
    have hsel : 6 ≤ (selField c.op).toNat := by simp only [imp_false] at *; omega
    simp [hsel]
  all_goals simp [*, withOperandBytes_ne_reserved]

theorem decodeFrameBuffer_eq_reserved_iff (nw : NativeWidth) (c : Command) (op : Byte) :
    decodeFrameBuffer nw c = .error (.reserved op) ↔ 5 ≤ (selField c.op).toNat ∧ c.op = op := by
  unfold decodeFrameBuffer
  split
  case h_6 h0 h1 h2 h3 h4 =>
    have hsel : 5 ≤ (selField c.op).toNat := by simp only [imp_false] at *; omega
    simp [hsel]
  all_goals simp [*, withOperandBytes_ne_reserved]

/-- The decoder calls a word reserved exactly when its fields do (R58), whatever the operands are. -/
theorem decode_eq_reserved_iff (nw : NativeWidth) (c : Command) (op : Byte) :
    decode nw c = .error (.reserved op) ↔ ReservedWord c.op ∧ c.op = op := by
  unfold decode ReservedWord
  rw [← zField_ne_zero_iff, ← toNat_classField, ← toNat_selField]
  by_cases hz : zField c.op ≠ 0#1
  · simp [hz]
  · rw [if_neg hz]
    split
    case h_1 h => simp [hz, h, decodeEncoder_eq_reserved_iff]
    case h_2 h => simp [hz, h, decodeDecoder_eq_reserved_iff]
    case h_3 h => simp [hz, h, decodeFrameBuffer_eq_reserved_iff]
    case h_4 h1 h2 h4 =>
      have hclass : (classField c.op).toNat ∉ [1, 2, 4] := by simp only [imp_false] at *; simp [h1, h2, h4]
      simp [hclass]

theorem step_of_reserved {s : State} {c : Command} {rest : List HostEvent} {op : Byte}
    (hin : s.input = .command c :: rest) (hd : decode s.cfg.nw c = .error (.reserved op)) :
    step s = .next ({ s with input := rest } : State).illegal := by
  simp only [step, nextAction, hin, hd]

/-- Each of the 256 words is tested; 17 are commands, 6 of the encoder, 6 of the decoder and 5 of the frame buffer. -/
theorem reservedWord_count :
    ((List.range 256).filter fun n => decide (ReservedWord (BitVec.ofNat 8 n))).length = 239 := by
  decide +kernel

end Sys2Proof.Machine

open Sys2Proof.Machine in
/-- Settles O6: the decoder answers `reserved` for the reserved words and no others (`decode_eq_reserved_iff`), and the step
then only takes the command and answers `ILLEGAL`, whatever its operand bytes are. -/
theorem reservedWordAnswersIllegal : Obligations.ReservedWordAnswersIllegal :=
  ⟨reservedWord_count,
    fun s c _ hin hres _ => step_of_reserved hin ((decode_eq_reserved_iff s.cfg.nw c c.op).mpr ⟨hres, rfl⟩),
    fun nw c op hres hd => hres ((decode_eq_reserved_iff nw c op).mp hd).1⟩
end

section
/-! PROOFS. The 17 command words: the class selects a part of the decoder and `sel` the row in it, which takes its operands
from the port (R57, R59). -/

namespace Sys2Proof.Machine

@[simp] theorem classField_commandWord (cls : BitVec 4) (z : BitVec 1) (sel : BitVec 3) :
    classField (commandWord cls z sel) = cls := by
  revert cls z sel
  decide

@[simp] theorem zField_commandWord (cls : BitVec 4) (z : BitVec 1) (sel : BitVec 3) :
    zField (commandWord cls z sel) = z := by
  revert cls z sel
  decide

@[simp] theorem selField_commandWord (cls : BitVec 4) (z : BitVec 1) (sel : BitVec 3) :
    selField (commandWord cls z sel) = sel := by
  revert cls z sel
  decide

theorem commandWord_fields (op : Byte) : commandWord (classField op) (zField op) (selField op) = op := by
  revert op
  decide

section
variable (nw : NativeWidth) {c : Command}

theorem decode_encoderWord (sel : BitVec 3) (h : c.op = commandWord 1#4 0#1 sel) :
    decode nw c = decodeEncoder nw c ∧ selField c.op = sel := by
  simp [decode, h]

theorem decode_decoderWord (sel : BitVec 3) (h : c.op = commandWord 2#4 0#1 sel) :
    decode nw c = decodeDecoder nw c ∧ selField c.op = sel := by
  simp [decode, h]

theorem decode_frameBufferWord (sel : BitVec 3) (h : c.op = commandWord 4#4 0#1 sel) :
    decode nw c = decodeFrameBuffer nw c ∧ selField c.op = sel := by
  simp [decode, h]

/-- When the host offers exactly `cmd_len` bytes, a command that takes operand bytes takes them all. -/
theorem withOperandBytes_exact (f : List Byte → Instr) (h : c.len.toNat % 2 ^ nw.bits = c.opd.length) :
    withOperandBytes nw c f = .ok (f c.opd) := by
  have hcount : count nw c = c.opd.length := h
  rw [withOperandBytes, operandBytes_enough hcount.le, hcount, List.take_length]

end

end Sys2Proof.Machine

open Sys2Proof Sys2Proof.Machine in
/-- Settles O1: each word is `commandWord` of its row's class and select, which pick the row's operand form; a row with
operand bytes takes all of them. -/
theorem commandMapDecodes : Obligations.CommandMapDecodes := fun nw c =>
  ⟨(commandWord_fields c.op).symm,
    fun h => by simp [decode_encoderWord nw 0 h, decodeEncoder, lowBits],
    fun h => by simp [decode_encoderWord nw 1 h, decodeEncoder, lowBits],
    fun h => by simp [decode_encoderWord nw 2 h, decodeEncoder, lowBits],
    fun h => by simp [decode_encoderWord nw 3 h, decodeEncoder, lowBits],
    fun h => by simp [decode_encoderWord nw 4 h, decodeEncoder, lowBits],
    fun h => by simp [decode_encoderWord nw 5 h, decodeEncoder, nativeValue, trunc],
    fun h => by simp [decode_frameBufferWord nw 1 h, decodeFrameBuffer],
    fun h => by simp [decode_frameBufferWord nw 3 h, decodeFrameBuffer, count, trunc],
    fun h => by simp [decode_frameBufferWord nw 4 h, decodeFrameBuffer, nativeValue, trunc],
    fun hlen =>
      ⟨fun h => by simp [decode_decoderWord nw 0 h, decodeDecoder, withOperandBytes_exact nw _ hlen],
        fun h => by simp [decode_decoderWord nw 1 h, decodeDecoder, withOperandBytes_exact nw _ hlen],
        fun h => by simp [decode_decoderWord nw 2 h, decodeDecoder, withOperandBytes_exact nw _ hlen],
        fun h => by simp [decode_decoderWord nw 3 h, decodeDecoder, withOperandBytes_exact nw _ hlen],
        fun h => by simp [decode_decoderWord nw 4 h, decodeDecoder, withOperandBytes_exact nw _ hlen],
        fun h => by simp [decode_decoderWord nw 5 h, decodeDecoder, withOperandBytes_exact nw _ hlen],
        fun h => by simp [decode_frameBufferWord nw 0 h, decodeFrameBuffer, withOperandBytes_exact nw _ hlen],
        fun h => by simp [decode_frameBufferWord nw 2 h, decodeFrameBuffer, withOperandBytes_exact nw _ hlen]⟩⟩
end

section
/-! PROOFS. The effect of the six `VENC` commands (R72): the code goes to the front of EBUF, whose 19 bytes hold the code
of every width in scope. -/

namespace Sys2Proof.Machine

theorem enc_trunc_length_le (nw : NativeWidth) (w : Width) (v : Nat) :
    (enc (w.bits nw) (trunc (w.bits nw) v)).length ≤ 19 := by
  have hpos : 0 < w.bits nw := Nat.lt_of_lt_of_le (by decide) (widthBits_ge nw w)
  calc (enc (w.bits nw) (trunc (w.bits nw) v)).length
      ≤ maxlen (w.bits nw) := enc_length_le_maxlen _ _ hpos (trunc_lt _ _)
    _ ≤ 19 := maxlen_le _ (widthBits_le nw w)

theorem venc_encodedInto (nw : NativeWidth) (w : Width) (v : Nat) (s : State) :
    EncodedInto (w.bits nw) (trunc (w.bits nw) v) s (venc (w.bits nw) v s) where
  ebufFront _ hi := memWrite_getElem_inside s.ebuf (Nat.zero_le _) (by rwa [Nat.zero_add])
  ebufTail _ hi := memWrite_getElem_outside s.ebuf (.inr (by rwa [Nat.zero_add]))
  codeFits := enc_trunc_length_le nw w v
  response := rfl
  others := rfl

theorem venc_encodedInto_of_lt (nw : NativeWidth) (w : Width) {v : Nat} (h : v < 2 ^ w.bits nw) (s : State) :
    EncodedInto (w.bits nw) v s (venc (w.bits nw) v s) := by
  have henc := venc_encodedInto nw w v s
  rwa [trunc_eq_self h] at henc

end Sys2Proof.Machine

open Sys2Proof.Machine in
/-- Settles O19: the six words are rows of the command map (O1), and each command is `venc` at its width
(`venc_encodedInto`); a value of a fixed width is its own truncation. -/
theorem encoderCommandsWriteTheCode : Obligations.EncoderCommandsWriteTheCode := fun s =>
  ⟨fun c =>
      have ⟨_, h8, h16, h32, h64, h128, hN, _⟩ := commandMapDecodes s.cfg.nw c
      ⟨h8, h16, h32, h64, h128, hN⟩,
    fun v => ⟨_, exec_eq_effect _ s, venc_encodedInto_of_lt s.cfg.nw .w8 v.isLt s⟩,
    fun v => ⟨_, exec_eq_effect _ s, venc_encodedInto_of_lt s.cfg.nw .w16 v.isLt s⟩,
    fun v => ⟨_, exec_eq_effect _ s, venc_encodedInto_of_lt s.cfg.nw .w32 v.isLt s⟩,
    fun v => ⟨_, exec_eq_effect _ s, venc_encodedInto_of_lt s.cfg.nw .w64 v.isLt s⟩,
    fun v => ⟨_, exec_eq_effect _ s, venc_encodedInto_of_lt s.cfg.nw .w128 v.isLt s⟩,
    fun v => ⟨_, exec_eq_effect _ s, venc_encodedInto s.cfg.nw .native v s⟩⟩
end

section
/-! PROOFS. The encoder and the frame buffer do not meet (R79): `VENC` commutes with any change of PEND, MAX_LEN, RXB and
TXB, and `FENC` with any change of EBUF. -/

namespace Sys2Proof.Machine

/-- The six encoder commands are one operation, at a width that only the parameters fix. -/
theorem effect_encoder {i : Instr}
    (h : ∃ v8 v16 v32 v64 v128 vN,
      i ∈ [Instr.venc8 v8, .venc16 v16, .venc32 v32, .venc64 v64, .venc128 v128, .vencN vN]) :
    ∃ (w : Width) (v : Nat), ∀ s : State, effect i s = venc (w.bits s.cfg.nw) v s := by
  obtain ⟨v8, v16, v32, v64, v128, vN, hi⟩ := h
  simp only [List.mem_cons, List.not_mem_nil, or_false] at hi
  obtain rfl | rfl | rfl | rfl | rfl | rfl := hi
  · exact ⟨.w8, v8.toNat, fun _ => rfl⟩
  · exact ⟨.w16, v16.toNat, fun _ => rfl⟩
  · exact ⟨.w32, v32.toNat, fun _ => rfl⟩
  · exact ⟨.w64, v64.toNat, fun _ => rfl⟩
  · exact ⟨.w128, v128.toNat, fun _ => rfl⟩
  · exact ⟨.native, vN, fun _ => rfl⟩

theorem venc_withFrameBuffer (w v : Nat) (s : State) (maxLen : Nat) (pend : Pend) (rxb txb : List Byte) :
    venc w v { s with maxLen := maxLen, pend := pend, rxb := rxb, txb := txb } =
      { venc w v s with maxLen := maxLen, pend := pend, rxb := rxb, txb := txb } := rfl

theorem frameEncode_withEbuf (p : List Byte) (s : State) (ebuf : Vector Byte 19) :
    frameEncode p { s with ebuf := ebuf } = { frameEncode p s with ebuf := ebuf } := by
  unfold frameEncode
  by_cases hbound : s.maxLen < p.length
  · simp only [hbound, if_true]
    rfl
  · by_cases hspace : fits s.cfg.txCap s.txb.length (frameOf s.cfg.nw.bits p).length
    · simp only [hbound, hspace, State.nwBits_eq, if_true, if_false]
      rfl
    · simp only [hbound, hspace, State.nwBits_eq, if_false, Bool.false_eq_true]
      rfl

/-- Setting EBUF to what it is changes no state, so `frameEncode_withEbuf` says that it is kept. -/
theorem frameEncode_ebuf (p : List Byte) (s : State) : (frameEncode p s).ebuf = s.ebuf :=
  (congrArg State.ebuf (frameEncode_withEbuf p s s.ebuf) :)

end Sys2Proof.Machine

open Sys2Proof.Machine in
/-- Settles O24: every encoder command is `venc` (`effect_encoder`), which commutes with a change of the frame buffer;
`FENC` commutes with a change of EBUF. -/
theorem encoderIgnoresTheFrameBuffer : Obligations.EncoderIgnoresTheFrameBuffer := by
  refine ⟨fun i s t maxLen pend rxb txb hi ht => ?_, fun p s t ebuf ht => ?_⟩
  · obtain ⟨w, v, heffect⟩ := effect_encoder hi
    rw [effect_of_exec ht, exec_eq_effect, heffect, heffect, venc_withFrameBuffer]
    exact ⟨⟨rfl, rfl, rfl, rfl⟩, ⟨_, rfl, rfl⟩, rfl⟩
  · rw [effect_of_exec ht, exec_eq_effect]
    exact ⟨frameEncode_ebuf p s, congrArg Host.Outcome.next (frameEncode_withEbuf p s ebuf)⟩
end

section
/-! PROOFS. Which of the three outcomes `dec_W` has (R90), once for all widths: a terminator among the first `maxlen(W)`
bytes, or else enough bytes for an overflow, or else too few. -/

namespace Sys2Proof.Machine

/-- A terminator in time: the number the groups spell, truncated, and the bytes up to the terminator. -/
theorem dec_terminated (w : Nat) {pre : List Byte} {b : Byte} (t : List Byte) (hpre : AllContinue pre)
    (hb : b[7] = false) (hlen : pre.length < maxlen w) :
    dec w (pre ++ b :: t) = .ok (groupsValue (pre ++ [b]) % 2 ^ w) (pre.length + 1) := by
  rw [dec, decLoop_terminated w pre t b (maxlen w) 0 0 hpre hb hlen (by decide)]
  simp [trunc]

theorem dec_continued {w : Nat} {s : List Byte} (hlen : maxlen w ≤ s.length) (hs : AllContinue (s.take (maxlen w))) :
    dec w s = .overflow :=
  decLoop_overflow w (maxlen w) 0 0 s hlen hs

theorem dec_truncated {w : Nat} {s : List Byte} (hlen : s.length < maxlen w) (hs : AllContinue s) :
    dec w s = .insufficient :=
  decLoop_insufficient w (maxlen w) 0 0 s hlen hs

theorem allContinue_take {s : List Byte} (h : AllContinue s) (n : Nat) : AllContinue (s.take n) :=
  fun b hb => h b (List.mem_of_mem_take hb)

/-- Everything `dec_W` can answer, with the shape of the bytes that makes it so. -/
theorem dec_cases (w : Nat) (s : List Byte) :
    (∃ pre b t, s = pre ++ b :: t ∧ AllContinue pre ∧ b[7] = false ∧ pre.length < maxlen w ∧
      dec w s = .ok (groupsValue (pre ++ [b]) % 2 ^ w) (pre.length + 1)) ∨
    (maxlen w ≤ s.length ∧ AllContinue (s.take (maxlen w)) ∧ dec w s = .overflow) ∨
    (s.length < maxlen w ∧ AllContinue s ∧ dec w s = .insufficient) := by
  obtain ⟨pre, b, t, rfl, hpre, hb⟩ | hs := terminator_cases s
  · by_cases hlen : pre.length < maxlen w
    · exact .inl ⟨pre, b, t, rfl, hpre, hb, hlen, dec_terminated w t hpre hb hlen⟩
    · have henough : maxlen w ≤ (pre ++ b :: t).length := by
        rw [List.length_append]
        omega
      have htake : AllContinue ((pre ++ b :: t).take (maxlen w)) := by
        rw [List.take_append_of_le_length (by omega)]
        exact allContinue_take hpre _
      exact .inr (.inl ⟨henough, htake, dec_continued henough htake⟩)
  · by_cases hlen : s.length < maxlen w
    · exact .inr (.inr ⟨hlen, hs, dec_truncated hlen hs⟩)
    · have henough : maxlen w ≤ s.length := by omega
      have htake := allContinue_take hs (maxlen w)
      exact .inr (.inl ⟨henough, htake, dec_continued henough htake⟩)

theorem dec_eq_ok_iff (w : Nat) (s : List Byte) (v c : Nat) :
    dec w s = .ok v c ↔
      ∃ pre b t, s = pre ++ b :: t ∧ AllContinue pre ∧ b[7] = false ∧ pre.length < maxlen w ∧
        c = pre.length + 1 ∧ v = groupsValue (pre ++ [b]) % 2 ^ w := by
  constructor
  · intro h
    obtain ⟨pre, b, t, hs, hpre, hb, hlen, hdec⟩ | ⟨_, _, hdec⟩ | ⟨_, _, hdec⟩ := dec_cases w s
    · obtain ⟨hv, hc⟩ := DecResult.ok.inj (h.symm.trans hdec)
      exact ⟨pre, b, t, hs, hpre, hb, hlen, hc, hv⟩
    · simp [hdec] at h
    · simp [hdec] at h
  · rintro ⟨pre, b, t, rfl, hpre, hb, hlen, rfl, rfl⟩
    exact dec_terminated w t hpre hb hlen

theorem dec_eq_overflow_iff (w : Nat) (s : List Byte) :
    dec w s = .overflow ↔ maxlen w ≤ s.length ∧ AllContinue (s.take (maxlen w)) := by
  constructor
  · intro h
    obtain ⟨_, _, _, _, _, _, _, hdec⟩ | ⟨hlen, hs, _⟩ | ⟨_, _, hdec⟩ := dec_cases w s
    · simp [hdec] at h
    · exact ⟨hlen, hs⟩
    · simp [hdec] at h
  · rintro ⟨hlen, hs⟩
    exact dec_continued hlen hs

theorem dec_eq_insufficient_iff (w : Nat) (s : List Byte) :
    dec w s = .insufficient ↔ s.length < maxlen w ∧ AllContinue s := by
  constructor
  · intro h
    obtain ⟨_, _, _, _, _, _, _, hdec⟩ | ⟨_, _, hdec⟩ | ⟨hlen, hs, _⟩ := dec_cases w s
    · simp [hdec] at h
    · simp [hdec] at h
    · exact ⟨hlen, hs⟩
  · rintro ⟨hlen, hs⟩
    exact dec_truncated hlen hs

end Sys2Proof.Machine

open Sys2Proof.Machine in
/-- Settles O26: each outcome is equivalent to its shape of the bytes, because `dec_cases` leaves no other. -/
theorem decodeOutcomeByTerminator : Obligations.DecodeOutcomeByTerminator := fun nw w s =>
  ⟨dec_eq_ok_iff (w.bits nw) s, dec_eq_overflow_iff (w.bits nw) s, dec_eq_insufficient_iff (w.bits nw) s⟩
end

section
/-! PROOFS. Non-minimal input (R95): the terminator `00` adds nothing to the number the groups spell, and fewer than
`maxlen(W)` groups never reach bit `W`, so nothing is truncated. -/

namespace Sys2Proof.Machine

theorem groupsValue_append_zero (s : List Byte) : groupsValue (s ++ [0x00#8]) = groupsValue s := by
  simp [groupsValue_append_singleton]

theorem groupsValue_lt_two_pow {w : Nat} {s : List Byte} (hw : 0 < w) (hlen : s.length < maxlen w) :
    groupsValue s < 2 ^ w := by
  have hbits : 7 * s.length ≤ w := by
    have := seven_mul_pred_maxlen_lt w hw
    omega
  exact Nat.lt_of_lt_of_le (groupsValue_lt s) (Nat.pow_le_pow_right (by decide) hbits)

theorem dec_zeroTerminated {w : Nat} {s : List Byte} (t : List Byte) (hw : 0 < w) (hs : AllContinue s)
    (hlen : s.length < maxlen w) : dec w (s ++ 0x00#8 :: t) = .ok (groupsValue s) (s.length + 1) := by
  rw [dec_terminated w t hs (by decide) hlen, groupsValue_append_zero,
    Nat.mod_eq_of_lt (groupsValue_lt_two_pow hw hlen)]

theorem widthBits_pos (nw : NativeWidth) (w : Width) : 0 < w.bits nw :=
  Nat.lt_of_lt_of_le (by decide) (widthBits_ge nw w)

theorem two_le_maxlen {w : Nat} (h : 8 ≤ w) : 2 ≤ maxlen w := by
  unfold maxlen
  omega

end Sys2Proof.Machine

open Sys2Proof Sys2Proof.Machine in
/-- Settles O27: all four decodings are instances of `dec_zeroTerminated`; every width has room for two bytes. -/
theorem nonMinimalInputIsAccepted : Obligations.NonMinimalInputIsAccepted := by
  refine ⟨fun nw w s t hs hlen => dec_zeroTerminated t (widthBits_pos nw w) hs hlen, fun nw w => ?_⟩
  have hroom := two_le_maxlen (widthBits_ge nw w)
  have hcont : AllContinue [0x80#8] := by unfold AllContinue; decide
  have hpadded (t : List Byte) : dec (w.bits nw) (0x80#8 :: 0x00#8 :: t) = .ok 0 2 :=
    dec_zeroTerminated t (widthBits_pos nw w) hcont hroom
  have hminimal : dec (w.bits nw) [0x00#8] = .ok 0 1 :=
    dec_zeroTerminated (s := []) [] (widthBits_pos nw w) (by simp [AllContinue]) (Nat.lt_of_lt_of_le (by decide) hroom)
  exact ⟨(hpadded []).trans (hpadded [0xFF#8]).symm, hpadded [], hminimal⟩
end

section
/-! PROOFS. Locality of decoding (R96): the loop reads no more bytes than it has turns, a success depends only on the
bytes it consumed, and a code spells its value. -/

namespace Sys2Proof.Machine

theorem decLoop_take (w fuel i acc : Nat) (s : List Byte) :
    decLoop w fuel i acc (s.take fuel) = decLoop w fuel i acc s := by
  induction fuel generalizing i acc s with
  | zero => rfl
  | succ f ih =>
    cases s with
    | nil => rfl
    | cons b t => simp only [List.take_succ_cons, decLoop, ih]

theorem dec_take_maxlen (w : Nat) (s : List Byte) : dec w (s.take (maxlen w)) = dec w s :=
  decLoop_take w (maxlen w) 0 0 s

theorem dec_take_consumed {w : Nat} {s : List Byte} {v c : Nat} (t : List Byte) (h : dec w s = .ok v c) :
    dec w (s.take c ++ t) = .ok v c := by
  obtain ⟨pre, b, u, rfl, hpre, hb, hlen, rfl, rfl⟩ := (dec_eq_ok_iff w s v c).mp h
  have htake : (pre ++ b :: u).take (pre.length + 1) ++ t = pre ++ b :: t := by simp [List.take_append]
  rw [htake]
  exact dec_terminated w t hpre hb hlen

theorem groupsValue_lowGroup {r : Nat} (h : r < 128) : groupsValue [lowGroup r] = r := by
  simp [groupsValue, lowGroup_toNat, Nat.mod_eq_of_lt h]

/-- A run of the encoder's loop emits the groups of its value (R51). -/
theorem groupsValue_encLoop (fuel r : Nat) (h : r < 128 ^ (fuel + 1)) : groupsValue (encLoop (fuel + 1) r) = r := by
  induction fuel generalizing r with
  | zero =>
    have hr : r < 128 := by simpa using h
    rw [encLoop_last hr, groupsValue_lowGroup hr]
  | succ k ih =>
    by_cases hr : r < 128
    · rw [encLoop_last hr, groupsValue_lowGroup hr]
    · rw [encLoop_more (by omega), groupsValue, ih (r / 128) (next_lt h), lowGroup_continued_toNat]
      omega

/-- A code is continued bytes and a terminator in time that spell the encoded value. -/
theorem enc_shape {w v : Nat} (hw : 0 < w) (h : v < 2 ^ w) :
    ∃ pre last, enc w v = pre ++ [last] ∧ AllContinue pre ∧ last[7] = false ∧ pre.length < maxlen w ∧
      groupsValue (pre ++ [last]) = v := by
  obtain ⟨henc, hv⟩ := enc_eq_encLoop w v hw h
  obtain ⟨pre, last, hshape, hpre, hlast, hlen⟩ := encLoop_shape (maxlen w - 1) v hv
  have hm := one_le_maxlen w hw
  exact ⟨pre, last, henc.trans hshape, hpre, hlast, by omega, hshape ▸ groupsValue_encLoop _ v hv⟩

/-- Prefix stability: bytes after a code are never consumed. -/
theorem dec_enc_append {w v : Nat} (t : List Byte) (hw : 0 < w) (h : v < 2 ^ w) :
    dec w (enc w v ++ t) = .ok v (enc w v).length := by
  obtain ⟨pre, last, henc, hpre, hlast, hlen, hvalue⟩ := enc_shape hw h
  rw [henc, List.append_assoc, List.singleton_append, dec_terminated w t hpre hlast hlen, hvalue,
    Nat.mod_eq_of_lt h, List.length_append, List.length_singleton]

end Sys2Proof.Machine

open Sys2Proof.Machine in
/-- Settles O28: `dec_take_maxlen`, `dec_take_consumed` and `dec_enc_append` are its three parts. -/
theorem decodeReadsOnlyTheNeededBytes : Obligations.DecodeReadsOnlyTheNeededBytes := fun nw w =>
  ⟨fun s => by rw [Nat.min_comm, ← List.take_take, List.take_length, dec_take_maxlen],
    fun _ _ _ t h => dec_take_consumed t h,
    fun _ t h => dec_enc_append t (widthBits_pos nw w) h⟩
end

section
/-! PROOFS. The six `VDEC` commands (R97): one response, and nothing else. -/

namespace Sys2Proof.Machine

/-- A command whose effect is `VDEC.W` answers the outcome of `dec_W` and changes no state. -/
theorem exec_decoder {i : Instr} {w : Nat} {bs : List Byte} {s : State} (h : effect i s = vdec w bs s) :
    exec i s = .next (answered s (decodeAnswer (dec w bs))) := by
  rw [exec_eq_effect, h, vdec_eq, answered_eq_respond]

end Sys2Proof.Machine

open Sys2Proof.Machine in
/-- Settles O25: the six words are rows of the command map (O1), and each command is `vdec` at its width. -/
theorem decoderCommandsAnswerTheDecoding : Obligations.DecoderCommandsAnswerTheDecoding := fun s bs =>
  ⟨fun c hlen hopd => by
      subst hopd
      obtain ⟨_, _, _, _, _, _, _, _, _, _, hbytes⟩ := commandMapDecodes s.cfg.nw c
      obtain ⟨h8, h16, h32, h64, h128, hN, _⟩ := hbytes hlen
      exact ⟨h8, h16, h32, h64, h128, hN⟩,
    exec_decoder rfl, exec_decoder rfl, exec_decoder rfl, exec_decoder rfl, exec_decoder rfl, exec_decoder rfl⟩
end

section
/-! PROOFS. The frame buffer's words as rows of the command map (O1), and the commands that touch one register or one
queue and no bound: `SETMAX`, `TXPOP` and `RXPUSH` (R120, R121, R126). -/

namespace Sys2Proof.Machine

theorem exec_setmax (m : Nat) (s : State) :
    exec (.setmax m) s = .next (answered { s with maxLen := m % 2 ^ s.nwBits } ⟨.ok, none, none, []⟩) :=
  (exec_eq_effect _ s).trans (congrArg _ (setMax_eq m s))

theorem exec_txpop (c : Nat) (s : State) :
    exec (.txpop c) s = .next (answered { s with txb := s.txb.drop (min c s.txb.length) }
      ⟨.ok, none, some (min c s.txb.length), s.txb.take (min c s.txb.length)⟩) :=
  (exec_eq_effect _ s).trans (congrArg _ (txPop_eq c s))

theorem fits_bytes_eq_false {cap : Capacity} {c used m : Nat} (hcap : cap = .bytes c) (h : c - used < m) :
    fits cap used m = false := by
  subst hcap
  exact decide_eq_false (Nat.not_le.mpr h)

theorem exec_rxpush_of_fits {q : List Byte} {s : State} (h : fits s.cfg.rxCap s.rxb.length q.length = true) :
    exec (.rxpush q) s = .next (answered { s with rxb := s.rxb ++ q } ⟨.ok, none, none, []⟩) := by
  obtain ⟨-, hpush⟩ | ⟨hfull, -⟩ := rxPush_cases q s
  · exact (exec_eq_effect _ s).trans (congrArg _ hpush)
  · simp [h] at hfull

theorem exec_rxpush_of_not_fits {q : List Byte} {s : State} (h : fits s.cfg.rxCap s.rxb.length q.length = false) :
    exec (.rxpush q) s = .next (answered s ⟨.noSpace, none, none, []⟩) := by
  obtain ⟨hfits, -⟩ | ⟨-, hpush⟩ := rxPush_cases q s
  · simp [h] at hfits
  · exact (exec_eq_effect _ s).trans (congrArg _ hpush)

theorem decode_setmaxWord {nw : NativeWidth} {c : Command} (h : c.op = 0x44#8) :
    decode nw c = .ok (.setmax (c.val.toNat % 2 ^ nw.bits)) :=
  have ⟨_, _, _, _, _, _, _, _, _, hset, _⟩ := commandMapDecodes nw c
  hset h

theorem decode_txpopWord {nw : NativeWidth} {c : Command} (h : c.op = 0x43#8) :
    decode nw c = .ok (.txpop (c.len.toNat % 2 ^ nw.bits)) :=
  have ⟨_, _, _, _, _, _, _, _, hpop, _⟩ := commandMapDecodes nw c
  hpop h

/-- The two commands that take operand bytes. -/
theorem decode_frameBytesWord {nw : NativeWidth} {c : Command} {q : List Byte}
    (hlen : c.len.toNat % 2 ^ nw.bits = q.length) (hopd : c.opd = q) :
    (c.op = 0x40#8 → decode nw c = .ok (.fenc q)) ∧ (c.op = 0x42#8 → decode nw c = .ok (.rxpush q)) := by
  subst hopd
  obtain ⟨_, _, _, _, _, _, _, _, _, _, hbytes⟩ := commandMapDecodes nw c
  obtain ⟨_, _, _, _, _, _, hfenc, hpush⟩ := hbytes hlen
  exact ⟨hfenc, hpush⟩

end Sys2Proof.Machine

open Sys2Proof.Machine in
/-- Settles O34: the word is a row of the command map (O1), and the effect of the command is `setMax_eq`. -/
theorem setmaxSetsTheBound : Obligations.SetmaxSetsTheBound := fun s m =>
  ⟨fun _ h => decode_setmaxWord h, exec_setmax m s⟩

open Sys2Proof.Machine in
/-- Settles O40: the word is a row of the command map (O1), and the effect of the command is `txPop_eq`. -/
theorem txpopTakesFromTheFront : Obligations.TxpopTakesFromTheFront := fun s c =>
  ⟨fun _ h => decode_txpopWord h, exec_txpop c s⟩

open Sys2Proof.Machine in
/-- Settles O35: the word is a row of the command map (O1); the bytes fit exactly in the cases of `fits_iff`, and more
than the free space of a finite RXB does not fit. -/
theorem rxpushAppendsAllOrNothing : Obligations.RxpushAppendsAllOrNothing := fun _ _ =>
  ⟨fun _ hop hlen hopd => (decode_frameBytesWord hlen hopd).2 hop,
    fun h => exec_rxpush_of_fits ((fits_iff _ _ _).mpr h),
    fun _ hcap h => exec_rxpush_of_not_fits (fits_bytes_eq_false hcap h)⟩
end

section
/-! PROOFS. `FENC` (R125): the bound test comes before the space test, and the frame is the prefix of the payload's
length and then the payload. -/

namespace Sys2Proof.Machine

theorem frameOf_eq {nw : Nat} {p : List Byte} (h : p.length < 2 ^ nw) : frameOf nw p = enc nw p.length ++ p := by
  rw [frameOf, trunc_eq_self h]

theorem frameOf_length {nw : Nat} {p : List Byte} (h : p.length < 2 ^ nw) :
    (frameOf nw p).length = (enc nw p.length).length + p.length := by
  rw [frameOf_eq h, List.length_append]

section
variable {p : List Byte} {s : State}

theorem exec_fenc_of_tooLarge (h : s.maxLen < p.length) :
    exec (.fenc p) s = .next (answered s ⟨.tooLarge, none, none, []⟩) := by
  obtain ⟨-, henc⟩ | ⟨hle, -⟩ | ⟨hle, -⟩ := frameEncode_cases p s
  · exact (exec_eq_effect _ s).trans (congrArg _ henc)
  · omega
  · omega

theorem exec_fenc_of_not_fits (hle : p.length ≤ s.maxLen)
    (h : fits s.cfg.txCap s.txb.length (frameOf s.nwBits p).length = false) :
    exec (.fenc p) s = .next (answered s ⟨.noSpace, none, none, []⟩) := by
  obtain ⟨hlt, -⟩ | ⟨-, hfits, -⟩ | ⟨-, -, henc⟩ := frameEncode_cases p s
  · omega
  · simp [h] at hfits
  · exact (exec_eq_effect _ s).trans (congrArg _ henc)

theorem exec_fenc_of_fits (hle : p.length ≤ s.maxLen)
    (h : fits s.cfg.txCap s.txb.length (frameOf s.nwBits p).length = true) :
    exec (.fenc p) s = .next (answered { s with txb := s.txb ++ frameOf s.nwBits p }
      ⟨.ok, none, some ((frameOf s.nwBits p).length % 2 ^ s.nwBits), []⟩) := by
  obtain ⟨hlt, -⟩ | ⟨-, -, henc⟩ | ⟨-, hfull, -⟩ := frameEncode_cases p s
  · omega
  · exact (exec_eq_effect _ s).trans (congrArg _ henc)
  · simp [h] at hfull

end

end Sys2Proof.Machine

open Sys2Proof.Machine in
/-- Settles O39: the word is a row of the command map (O1); the three outcomes are those of `frameEncode_cases`, with the
length of the frame written out by `frameOf_length`. -/
theorem fencAppendsTheWholeFrameOrNothing : Obligations.FencAppendsTheWholeFrameOrNothing := by
  intro s p hp
  rw [← frameOf_length hp, ← frameOf_eq hp]
  exact ⟨fun _ hop hlen hopd => (decode_frameBytesWord hlen hopd).1 hop,
    exec_fenc_of_tooLarge,
    fun _ hle hcap h => exec_fenc_of_not_fits hle (fits_bytes_eq_false hcap h),
    fun hle h => exec_fenc_of_fits hle ((fits_iff _ _ _).mpr h)⟩
end

section
/-! PROOFS. `FDEC` row by row (R123): the length phase moves the decoded length into PEND, and the payload phase then
does with it what it does with a length that was pending before. -/

namespace Sys2Proof.Machine

section
variable {s : State} {n : Nat}

theorem payloadPhase_tooLarge (h : s.maxLen < n) :
    payloadPhase n s = answered (s.setPend .empty) ⟨.tooLarge, none, some n, []⟩ := by
  obtain ⟨-, heq⟩ | ⟨hle, -⟩ | ⟨hle, -⟩ := payloadPhase_cases n s
  · exact heq
  · omega
  · omega

theorem payloadPhase_incomplete (hle : n ≤ s.maxLen) (h : s.rxb.length < n) :
    payloadPhase n s = answered s ⟨.none, none, some (n - s.rxb.length), []⟩ := by
  obtain ⟨hlt, -⟩ | ⟨-, -, heq⟩ | ⟨-, henough, -⟩ := payloadPhase_cases n s
  · omega
  · exact heq
  · omega

theorem payloadPhase_frame (hle : n ≤ s.maxLen) (h : n ≤ s.rxb.length) :
    payloadPhase n s = answered ((s.dropRxb n).setPend .empty) ⟨.frame, none, some n, s.rxb.take n⟩ := by
  obtain ⟨hlt, -⟩ | ⟨-, hshort, -⟩ | ⟨-, -, heq⟩ := payloadPhase_cases n s
  · omega
  · omega
  · exact heq

end

/-- Rows 3 and 5 leave PEND as it was, Empty: their payload phase undoes the move of the length into it. -/
theorem frameDecode_of_row {s t : State} {k : Nat} (h : FdecRow s k t) : frameDecode s = t := by
  cases h with
  | row1 hp hd => exact frameDecode_insufficient hp hd
  | row2 hp hd => exact frameDecode_overflow hp hd
  | row3 n c hp hd hlt =>
    rw [hp]
    exact (frameDecode_ok hp hd).trans (payloadPhase_tooLarge hlt)
  | row4 n c hp hd hle hshort =>
    rw [← List.length_drop] at hshort ⊢
    exact (frameDecode_ok hp hd).trans (payloadPhase_incomplete hle hshort)
  | row5 n c hp hd hle henough =>
    rw [← List.length_drop] at henough
    rw [hp, ← List.drop_drop]
    exact (frameDecode_ok hp hd).trans (payloadPhase_frame hle henough)
  | row6 n hp hlt => exact (frameDecode_awaiting hp).trans (payloadPhase_tooLarge hlt)
  | row7 n hp hle hshort => exact (frameDecode_awaiting hp).trans (payloadPhase_incomplete hle hshort)
  | row8 n hp hle henough => exact (frameDecode_awaiting hp).trans (payloadPhase_frame hle henough)

end Sys2Proof.Machine

open Sys2Proof.Machine in
/-- Settles O36: `FDEC` is `frameDecode`, which answers the state of each row. -/
theorem fdecFollowsTheStateTable : Obligations.FdecFollowsTheStateTable := fun s _ _ h =>
  (exec_eq_effect .fdec s).trans (congrArg _ (frameDecode_of_row h))
end

section
/-! PROOFS. The command map as two tables (R57, R59): the rows whose command takes operand bytes, and the rows whose
operands come from `cmd_val` and `cmd_len` alone. Every word that is not reserved is a row of one of them, so a fact
about the decoder or the encoder is a fact about each row. -/

namespace Sys2Proof.Machine

/-- The rows of the map whose command takes operand bytes. -/
inductive BytesRow : Byte → (List Byte → Instr) → Prop
  | vdec8 : BytesRow 0x20#8 .vdec8
  | vdec16 : BytesRow 0x21#8 .vdec16
  | vdec32 : BytesRow 0x22#8 .vdec32
  | vdec64 : BytesRow 0x23#8 .vdec64
  | vdec128 : BytesRow 0x24#8 .vdec128
  | vdecN : BytesRow 0x25#8 .vdecN
  | fenc : BytesRow 0x40#8 .fenc
  | rxpush : BytesRow 0x42#8 .rxpush

/-- The rows of the map whose command takes no operand bytes, with the command the ports then carry. -/
inductive PortRow (nw : NativeWidth) (c : Command) : Byte → Instr → Prop
  | venc8 : PortRow nw c 0x10#8 (.venc8 (c.val.setWidth 8))
  | venc16 : PortRow nw c 0x11#8 (.venc16 (c.val.setWidth 16))
  | venc32 : PortRow nw c 0x12#8 (.venc32 (c.val.setWidth 32))
  | venc64 : PortRow nw c 0x13#8 (.venc64 (c.val.setWidth 64))
  | venc128 : PortRow nw c 0x14#8 (.venc128 c.val)
  | vencN : PortRow nw c 0x15#8 (.vencN (nativeValue nw c))
  | fdec : PortRow nw c 0x41#8 .fdec
  | txpop : PortRow nw c 0x43#8 (.txpop (count nw c))
  | setmax : PortRow nw c 0x44#8 (.setmax (nativeValue nw c))

section
variable {nw : NativeWidth} {c : Command} {op : Byte} {f : List Byte → Instr} {i : Instr}

theorem decode_bytesRow (h : BytesRow op f) (hop : c.op = op) : decode nw c = withOperandBytes nw c f := by
  cases h with
  | vdec8 => simp [decode_decoderWord nw 0 hop, decodeDecoder]
  | vdec16 => simp [decode_decoderWord nw 1 hop, decodeDecoder]
  | vdec32 => simp [decode_decoderWord nw 2 hop, decodeDecoder]
  | vdec64 => simp [decode_decoderWord nw 3 hop, decodeDecoder]
  | vdec128 => simp [decode_decoderWord nw 4 hop, decodeDecoder]
  | vdecN => simp [decode_decoderWord nw 5 hop, decodeDecoder]
  | fenc => simp [decode_frameBufferWord nw 0 hop, decodeFrameBuffer]
  | rxpush => simp [decode_frameBufferWord nw 2 hop, decodeFrameBuffer]

theorem decode_portRow (h : PortRow nw c op i) (hop : c.op = op) : decode nw c = .ok i := by
  obtain ⟨-, h8, h16, h32, h64, h128, hN, hfdec, hpop, hset, -⟩ := commandMapDecodes nw c
  cases h with
  | venc8 => exact h8 hop
  | venc16 => exact h16 hop
  | venc32 => exact h32 hop
  | venc64 => exact h64 hop
  | venc128 => exact h128 hop
  | vencN => exact hN hop
  | fdec => exact hfdec hop
  | txpop => exact hpop hop
  | setmax => exact hset hop

theorem encode_bytesRow (h : BytesRow op f) (s : List Byte) : encode (f s) = bytesCommand op s := by
  cases h <;> rfl

theorem wellFormed_bytesRow (h : BytesRow op f) (s : List Byte) : (f s).WellFormed nw ↔ FitsNative nw s.length := by
  cases h <;> exact decide_eq_true_iff

theorem bytesRow_mem (h : BytesRow op f) : op ∈ [0x20#8, 0x21#8, 0x22#8, 0x23#8, 0x24#8, 0x25#8, 0x40#8, 0x42#8] := by
  cases h <;> decide

theorem encode_portRow (h : PortRow nw c op i) : (encode i).op = op := by
  cases h <;> rfl

theorem portRow_withOpd (h : PortRow nw c op i) (opd : List Byte) : PortRow nw { c with opd := opd } op i := by
  cases h <;> constructor

/-- A native operand of a row is truncated to `NW` bits, so it fits. -/
theorem wellFormed_portRow (h : PortRow nw c op i) : i.WellFormed nw := by
  cases h with
  | vencN => exact decide_eq_true (trunc_lt _ _)
  | txpop => exact decide_eq_true (trunc_lt _ _)
  | setmax => exact decide_eq_true (trunc_lt _ _)
  | venc8 => rfl
  | venc16 => rfl
  | venc32 => rfl
  | venc64 => rfl
  | venc128 => rfl
  | fdec => rfl

end

theorem bytesRow_of_mem {op : Byte} (h : op ∈ [0x20#8, 0x21#8, 0x22#8, 0x23#8, 0x24#8, 0x25#8, 0x40#8, 0x42#8]) :
    ∃ f, BytesRow op f := by
  simp only [List.mem_cons, List.not_mem_nil, or_false] at h
  obtain rfl | rfl | rfl | rfl | rfl | rfl | rfl | rfl := h
  · exact ⟨_, .vdec8⟩
  · exact ⟨_, .vdec16⟩
  · exact ⟨_, .vdec32⟩
  · exact ⟨_, .vdec64⟩
  · exact ⟨_, .vdec128⟩
  · exact ⟨_, .vdecN⟩
  · exact ⟨_, .fenc⟩
  · exact ⟨_, .rxpush⟩

theorem portRow_of_mem (nw : NativeWidth) (c : Command) {op : Byte}
    (h : op ∈ [0x10#8, 0x11#8, 0x12#8, 0x13#8, 0x14#8, 0x15#8, 0x41#8, 0x43#8, 0x44#8]) :
    ∃ i, PortRow nw c op i := by
  simp only [List.mem_cons, List.not_mem_nil, or_false] at h
  obtain rfl | rfl | rfl | rfl | rfl | rfl | rfl | rfl | rfl := h
  · exact ⟨_, .venc8⟩
  · exact ⟨_, .venc16⟩
  · exact ⟨_, .venc32⟩
  · exact ⟨_, .venc64⟩
  · exact ⟨_, .venc128⟩
  · exact ⟨_, .vencN⟩
  · exact ⟨_, .fdec⟩
  · exact ⟨_, .txpop⟩
  · exact ⟨_, .setmax⟩

theorem reservedWord_or_mem_map (op : Byte) : ReservedWord op ∨
    op ∈ [0x10#8, 0x11#8, 0x12#8, 0x13#8, 0x14#8, 0x15#8, 0x41#8, 0x43#8, 0x44#8] ∨
    op ∈ [0x20#8, 0x21#8, 0x22#8, 0x23#8, 0x24#8, 0x25#8, 0x40#8, 0x42#8] := by
  revert op
  decide +kernel

/-- Everything the decoder can be asked: a reserved word, a row without operand bytes, or a row with them. -/
theorem word_cases (nw : NativeWidth) (c : Command) :
    ReservedWord c.op ∨ (∃ i, PortRow nw c c.op i) ∨ ∃ f, BytesRow c.op f :=
  (reservedWord_or_mem_map c.op).imp_right (Or.imp (portRow_of_mem nw c) bytesRow_of_mem)

theorem decode_bytesCommand {nw : NativeWidth} {op : Byte} {f : List Byte → Instr} {s : List Byte}
    (h : BytesRow op f) (hwf : (f s).WellFormed nw) : decode nw (encode (f s)) = .ok (f s) := by
  have hlen : s.length < 2 ^ nw.bits := (wellFormed_bytesRow h s).mp hwf
  rw [encode_bytesRow h, decode_bytesRow h rfl, withOperandBytes, operandBytes_bytesCommand hlen]

end Sys2Proof.Machine

open Sys2Proof Sys2Proof.Machine in
/-- Settles O4: the row of each command is decoded to it; a fixed-width operand survives the 128-bit port, and a native
operand that fits `NW` bits is its own truncation. -/
theorem decodeOfEncodeIsIdentity : Obligations.DecodeOfEncodeIsIdentity := by
  intro nw i hwf
  cases i with
  | venc8 v => rw [decode_portRow .venc8 rfl]; simp [encode, valueCommand]
  | venc16 v => rw [decode_portRow .venc16 rfl]; simp [encode, valueCommand]
  | venc32 v => rw [decode_portRow .venc32 rfl]; simp [encode, valueCommand]
  | venc64 v => rw [decode_portRow .venc64 rfl]; simp [encode, valueCommand]
  | venc128 v => exact decode_portRow .venc128 rfl
  | vencN v => rw [decode_portRow .vencN rfl, encode, nativeValue_valueCommand (of_decide_eq_true hwf)]
  | vdec8 s => exact decode_bytesCommand .vdec8 hwf
  | vdec16 s => exact decode_bytesCommand .vdec16 hwf
  | vdec32 s => exact decode_bytesCommand .vdec32 hwf
  | vdec64 s => exact decode_bytesCommand .vdec64 hwf
  | vdec128 s => exact decode_bytesCommand .vdec128 hwf
  | vdecN s => exact decode_bytesCommand .vdecN hwf
  | fenc p => exact decode_bytesCommand .fenc hwf
  | fdec => exact decode_portRow .fdec rfl
  | rxpush q => exact decode_bytesCommand .rxpush hwf
  | txpop n => rw [decode_portRow .txpop rfl, encode, count_countCommand (of_decide_eq_true hwf)]
  | setmax m => rw [decode_portRow .setmax rfl, encode, nativeValue_valueCommand (of_decide_eq_true hwf)]
end

section
/-! PROOFS. The decoder's answer to each kind of word (R57 to R59), and which operand bytes it looks at. -/

namespace Sys2Proof.Machine

theorem decode_operandsMissing {nw : NativeWidth} {c : Command} {f : List Byte → Instr} (h : BytesRow c.op f)
    (hlen : c.opd.length < count nw c) : decode nw c = .error (.operandsMissing (count nw c) c.opd.length) := by
  rw [decode_bytesRow h rfl, withOperandBytes, operandBytes_missing hlen]

/-- The decoder's answer to each kind of word. -/
theorem decode_cases (nw : NativeWidth) (c : Command) :
    (ReservedWord c.op ∧ decode nw c = .error (.reserved c.op)) ∨
    (∃ i, PortRow nw c c.op i ∧ decode nw c = .ok i) ∨
    (∃ f, BytesRow c.op f ∧ count nw c ≤ c.opd.length ∧ decode nw c = .ok (f (c.opd.take (count nw c)))) ∨
    (∃ f, BytesRow c.op f ∧ c.opd.length < count nw c ∧
      decode nw c = .error (.operandsMissing (count nw c) c.opd.length)) := by
  obtain h | ⟨i, h⟩ | ⟨f, h⟩ := word_cases nw c
  · exact .inl ⟨h, (decode_eq_reserved_iff nw c c.op).mpr ⟨h, rfl⟩⟩
  · exact .inr (.inl ⟨i, h, decode_portRow h rfl⟩)
  · obtain ⟨hlen, hd⟩ | ⟨hlen, -⟩ := withOperandBytes_cases nw c f
    · exact .inr (.inr (.inl ⟨f, h, hlen, (decode_bytesRow h rfl).trans hd⟩))
    · exact .inr (.inr (.inr ⟨f, h, hlen, decode_operandsMissing h hlen⟩))

theorem withOperandBytes_take {nw : NativeWidth} {c : Command} {k : Nat} (h : count nw c ≤ k) (f : List Byte → Instr) :
    withOperandBytes nw { c with opd := c.opd.take k } f = withOperandBytes nw c f := by
  by_cases hk : c.opd.length ≤ k
  · rw [List.take_of_length_le hk]
  · have hcount : count nw { c with opd := c.opd.take k } = count nw c := rfl
    have hshort : count nw { c with opd := c.opd.take k } ≤ (c.opd.take k).length := by
      rw [List.length_take]
      omega
    rw [withOperandBytes, withOperandBytes, operandBytes_enough hshort, operandBytes_enough (by omega), hcount,
      List.take_take, Nat.min_eq_left h]

end Sys2Proof.Machine

open Sys2Proof.Machine in
/-- Settles O5: the command is its row's; a native operand is truncated to `NW` bits, and `cmd_len` bounds the operand
bytes. -/
theorem decodedCommandIsWellFormed : Obligations.DecodedCommandIsWellFormed := by
  intro nw c i hd
  obtain ⟨-, h⟩ | ⟨j, hrow, h⟩ | ⟨f, hrow, hlen, h⟩ | ⟨f, -, -, h⟩ := decode_cases nw c
  · simp [h] at hd
  · obtain rfl := Except.ok.inj (hd.symm.trans h)
    exact ⟨wellFormed_portRow hrow, encode_portRow hrow⟩
  · obtain rfl := Except.ok.inj (hd.symm.trans h)
    rw [wellFormed_bytesRow hrow, encode_bytesRow hrow, List.length_take_of_le hlen]
    exact ⟨trunc_lt _ _, rfl⟩
  · simp [h] at hd

open Sys2Proof.Machine in
/-- Settles O2: a reserved word and a row without operand bytes never look at them, and a row with them takes the same
first `cmd_len`. -/
theorem surplusOperandBytesAreNotTaken : Obligations.SurplusOperandBytesAreNotTaken := by
  intro nw c k hk
  obtain h | ⟨i, h⟩ | ⟨f, h⟩ := word_cases nw c
  · rw [(decode_eq_reserved_iff nw c c.op).mpr ⟨h, rfl⟩]
    exact (decode_eq_reserved_iff nw _ c.op).mpr ⟨h, rfl⟩
  · rw [decode_portRow h rfl]
    exact decode_portRow (portRow_withOpd h _) rfl
  · rw [decode_bytesRow h rfl, ← withOperandBytes_take hk f]
    exact decode_bytesRow h rfl
end

section
/-! PROOFS. The step by the next host event (R7, R35): no event, a command that is decoded, or one whose operand bytes
are missing; a reset and a reserved word are in the sections above. -/

namespace Sys2Proof.Machine

section
variable {s : State} {c : Command} {rest : List HostEvent} {wanted offered : Nat}

theorem step_of_no_event (h : s.input = []) : step s = .next s := by
  simp [step, nextAction, h]

theorem step_of_command {i : Instr} (hin : s.input = .command c :: rest) (hd : decode s.cfg.nw c = .ok i) :
    step s = exec i { s with input := rest } := by
  simp only [step, nextAction, hin, hd]

theorem step_of_abandoned (hin : s.input = .command c :: .reset :: rest)
    (hd : decode s.cfg.nw c = .error (.operandsMissing wanted offered)) : step s = .next (s.applyReset rest) := by
  simp only [step, nextAction, hin, hd]

theorem step_of_unsupplied (hin : s.input = .command c :: rest)
    (hd : decode s.cfg.nw c = .error (.operandsMissing wanted offered)) (hrest : rest.head? ≠ some .reset) :
    step s = .fault .operandsNeverSupplied := by
  simp only [step, nextAction, hin, hd]
  cases rest with
  | nil => rfl
  | cons e rest =>
    cases e with
    | command c' => rfl
    | reset => exact absurd rfl hrest

end

/-- A step answers a next state, or the block waits for ever for the operand bytes of a command (U10). -/
theorem step_next_or_fault (s : State) :
    (∃ t, step s = .next t) ∨
    (∃ c rest f, s.input = .command c :: rest ∧ BytesRow c.op f ∧ c.opd.length < count s.cfg.nw c ∧
      rest.head? ≠ some .reset ∧ step s = .fault .operandsNeverSupplied) := by
  cases hin : s.input with
  | nil => exact .inl ⟨s, step_of_no_event hin⟩
  | cons e rest =>
    cases e with
    | reset => exact .inl ⟨_, step_of_reset hin⟩
    | command c =>
      obtain ⟨-, hd⟩ | ⟨i, -, hd⟩ | ⟨f, -, -, hd⟩ | ⟨f, hrow, hlen, hd⟩ := decode_cases s.cfg.nw c
      · exact .inl ⟨_, step_of_reserved hin hd⟩
      · exact .inl ⟨_, (step_of_command hin hd).trans (exec_eq_effect _ _)⟩
      · exact .inl ⟨_, (step_of_command hin hd).trans (exec_eq_effect _ _)⟩
      · by_cases hrest : rest.head? = some .reset
        · obtain ⟨rest', rfl⟩ := List.head?_eq_some_iff.mp hrest
          exact .inl ⟨_, step_of_abandoned hin hd⟩
        · exact .inr ⟨c, rest, f, rfl, hrow, hlen, hrest, step_of_unsupplied hin hd hrest⟩

end Sys2Proof.Machine

open Sys2Proof.Machine in
/-- Settles O7: the next action is to run the decoded command. -/
theorem stepExecutesTheDecodedCommand : Obligations.StepExecutesTheDecodedCommand := fun _ _ _ _ => step_of_command

open Sys2Proof.Machine in
/-- Settles O8: with no event the next action is to proceed with the same state. -/
theorem stepIdlesWithoutHostEvent : Obligations.StepIdlesWithoutHostEvent := fun _ => step_of_no_event

open Sys2Proof.Machine in
/-- Settles O12: the reset that follows gives the reset state of the section above, and adds no response. -/
theorem resetAbandonsTheCommandInProgress : Obligations.ResetAbandonsTheCommandInProgress :=
  fun s _ rest _ _ hin hd => ⟨s.applyReset rest, step_of_abandoned hin hd, s.applyReset_pend rest,
    s.applyReset_maxLen rest, s.applyReset_rxb rest, s.applyReset_txb rest, s.applyReset_input rest,
    s.applyReset_responses rest⟩

open Sys2Proof.Machine in
/-- Settles O9: `step_next_or_fault` leaves no refusal and one way to stop, and a row with operand bytes that are
missing and not abandoned stops. -/
theorem onlyAnUnsuppliedCommandStops : Obligations.OnlyAnUnsuppliedCommandStops := by
  refine fun s => ⟨fun r hr => ?_, fun f => ⟨fun hf => ?_, ?_⟩⟩
  · obtain ⟨t, h⟩ | ⟨_, _, _, -, -, -, -, h⟩ := step_next_or_fault s <;> simp [h] at hr
  · obtain ⟨t, h⟩ | ⟨c, rest, _, hin, hrow, hlen, hrest, -⟩ := step_next_or_fault s
    · simp [h] at hf
    · exact ⟨c, rest, hin, bytesRow_mem hrow, hlen, hrest⟩
  · rintro ⟨c, rest, hin, hop, hlen, hrest⟩
    obtain ⟨_, hrow⟩ := bytesRow_of_mem hop
    cases f
    exact step_of_unsupplied hin (decode_operandsMissing hrow hlen) hrest
end

section
/-! PROOFS. Everything a command can do, row by row: the encoder and the decoder as one operation each, the frame
buffer's commands by their outcomes, and `FDEC` by its state table (R72, R97, R120 to R126). -/

namespace Sys2Proof.Machine

/-- The width and the value of an encoder command. -/
def encoderOf : Instr → Option (Width × Nat)
  | .venc8 v => some (.w8, v.toNat)
  | .venc16 v => some (.w16, v.toNat)
  | .venc32 v => some (.w32, v.toNat)
  | .venc64 v => some (.w64, v.toNat)
  | .venc128 v => some (.w128, v.toNat)
  | .vencN v => some (.native, v)
  | _ => none

/-- The width and the bytes of a decoder command. -/
def decoderOf : Instr → Option (Width × List Byte)
  | .vdec8 s => some (.w8, s)
  | .vdec16 s => some (.w16, s)
  | .vdec32 s => some (.w32, s)
  | .vdec64 s => some (.w64, s)
  | .vdec128 s => some (.w128, s)
  | .vdecN s => some (.native, s)
  | _ => none

/-- The code of the low bits of a value at a width: what an encoder command writes. -/
def codeAt (s : State) (w : Width) (v : Nat) : List Byte := enc (w.bits s.cfg.nw) (trunc (w.bits s.cfg.nw) v)

/-- What a command leaves of the state `s`, one row per outcome, with the response that ends it. -/
inductive CommandRow (s : State) : Instr → State → Prop
  | encoder {i : Instr} {w : Width} {v : Nat} : encoderOf i = some (w, v) →
      CommandRow s i (answered (s.writeEbuf 0 (codeAt s w v)) ⟨.ok, none, some (codeAt s w v).length, codeAt s w v⟩)
  | decoder {i : Instr} {w : Width} {bs : List Byte} : decoderOf i = some (w, bs) →
      CommandRow s i (answered s (decodeAnswer (dec (w.bits s.cfg.nw) bs)))
  | fencTooLarge {p : List Byte} : s.maxLen < p.length → CommandRow s (.fenc p) (answered s ⟨.tooLarge, none, none, []⟩)
  | fencOk {p : List Byte} : p.length ≤ s.maxLen → fits s.cfg.txCap s.txb.length (frameOf s.nwBits p).length = true →
      CommandRow s (.fenc p) (answered { s with txb := s.txb ++ frameOf s.nwBits p }
        ⟨.ok, none, some ((frameOf s.nwBits p).length % 2 ^ s.nwBits), []⟩)
  | fencNoSpace {p : List Byte} : p.length ≤ s.maxLen →
      fits s.cfg.txCap s.txb.length (frameOf s.nwBits p).length = false →
      CommandRow s (.fenc p) (answered s ⟨.noSpace, none, none, []⟩)
  | fdec {k : Nat} {t : State} : FdecRow s k t → CommandRow s .fdec t
  | rxpushOk {q : List Byte} : fits s.cfg.rxCap s.rxb.length q.length = true →
      CommandRow s (.rxpush q) (answered { s with rxb := s.rxb ++ q } ⟨.ok, none, none, []⟩)
  | rxpushNoSpace {q : List Byte} : fits s.cfg.rxCap s.rxb.length q.length = false →
      CommandRow s (.rxpush q) (answered s ⟨.noSpace, none, none, []⟩)
  | txpop {c : Nat} : CommandRow s (.txpop c) (answered { s with txb := s.txb.drop (min c s.txb.length) }
      ⟨.ok, none, some (min c s.txb.length), s.txb.take (min c s.txb.length)⟩)
  | setmax {m : Nat} : CommandRow s (.setmax m) (answered { s with maxLen := m % 2 ^ s.nwBits } ⟨.ok, none, none, []⟩)

/-- Some row of the state table of `FDEC` applies in every state (R123). -/
theorem fdecRow_exists (s : State) : ∃ k t, FdecRow s k t := by
  cases hp : s.pend with
  | empty =>
    cases hd : dec s.nwBits s.rxb with
    | insufficient => exact ⟨1, _, .row1 hp hd⟩
    | overflow => exact ⟨2, _, .row2 hp hd⟩
    | ok n c =>
      by_cases hbound : n ≤ s.maxLen
      · by_cases henough : n ≤ s.rxb.length - c
        · exact ⟨5, _, .row5 n c hp hd hbound henough⟩
        · exact ⟨4, _, .row4 n c hp hd hbound (Nat.not_le.mp henough)⟩
      · exact ⟨3, _, .row3 n c hp hd (Nat.not_le.mp hbound)⟩
  | awaitingPayload n =>
    by_cases hbound : n ≤ s.maxLen
    · by_cases henough : n ≤ s.rxb.length
      · exact ⟨8, _, .row8 n hp hbound henough⟩
      · exact ⟨7, _, .row7 n hp hbound (Nat.not_le.mp henough)⟩
    · exact ⟨6, _, .row6 n hp (Nat.not_le.mp hbound)⟩

theorem effect_of_encoderOf {i : Instr} {w : Width} {v : Nat} (h : encoderOf i = some (w, v)) (s : State) :
    effect i s = venc (w.bits s.cfg.nw) v s := by
  cases i <;> cases h <;> rfl

theorem effect_of_decoderOf {i : Instr} {w : Width} {bs : List Byte} (h : decoderOf i = some (w, bs)) (s : State) :
    effect i s = vdec (w.bits s.cfg.nw) bs s := by
  cases i <;> cases h <;> rfl

/-- A row of a command is what the command does: the rows of one command exclude each other. -/
theorem exec_of_commandRow {s t : State} {i : Instr} (h : CommandRow s i t) : exec i s = .next t := by
  cases h with
  | encoder h => exact (exec_eq_effect _ s).trans (congrArg _ (effect_of_encoderOf h s))
  | decoder h => exact exec_decoder (effect_of_decoderOf h s)
  | fencTooLarge hlt => exact exec_fenc_of_tooLarge hlt
  | fencOk hle hfits => exact exec_fenc_of_fits hle hfits
  | fencNoSpace hle hfull => exact exec_fenc_of_not_fits hle hfull
  | fdec h => exact (exec_eq_effect .fdec s).trans (congrArg _ (frameDecode_of_row h))
  | rxpushOk hfits => exact exec_rxpush_of_fits hfits
  | rxpushNoSpace hfull => exact exec_rxpush_of_not_fits hfull
  | txpop => exact exec_txpop _ s
  | setmax => exact exec_setmax _ s

/-- Every command has a row in every state. -/
theorem commandRow_exists (i : Instr) (s : State) : ∃ t, CommandRow s i t := by
  cases i with
  | venc8 | venc16 | venc32 | venc64 | venc128 | vencN => exact ⟨_, .encoder rfl⟩
  | vdec8 | vdec16 | vdec32 | vdec64 | vdec128 | vdecN => exact ⟨_, .decoder rfl⟩
  | fenc p =>
    by_cases hle : p.length ≤ s.maxLen
    · cases hfits : fits s.cfg.txCap s.txb.length (frameOf s.nwBits p).length with
      | true => exact ⟨_, .fencOk hle hfits⟩
      | false => exact ⟨_, .fencNoSpace hle hfits⟩
    · exact ⟨_, .fencTooLarge (Nat.not_le.mp hle)⟩
  | fdec =>
    obtain ⟨_, t, h⟩ := fdecRow_exists s
    exact ⟨t, .fdec h⟩
  | rxpush q =>
    cases hfits : fits s.cfg.rxCap s.rxb.length q.length with
    | true => exact ⟨_, .rxpushOk hfits⟩
    | false => exact ⟨_, .rxpushNoSpace hfits⟩
  | txpop c => exact ⟨_, .txpop⟩
  | setmax m => exact ⟨_, .setmax⟩

theorem commandRow_of_exec {s t : State} {i : Instr} (h : exec i s = .next t) : CommandRow s i t := by
  obtain ⟨t', hrow⟩ := commandRow_exists i s
  rwa [Host.Outcome.next.inj (h.symm.trans (exec_of_commandRow hrow))]

theorem commandRow_effect (i : Instr) (s : State) : CommandRow s i (effect i s) :=
  commandRow_of_exec (exec_eq_effect i s)

end Sys2Proof.Machine
end

section
/-! PROOFS. The frame of every command (R72, R97, R120 to R126). -/

namespace Sys2Proof.Machine

theorem mem_encoders {i : Instr} {w : Width} {v : Nat} (h : encoderOf i = some (w, v)) :
    ∃ v8 v16 v32 v64 v128 vN,
      i ∈ [Instr.venc8 v8, .venc16 v16, .venc32 v32, .venc64 v64, .venc128 v128, .vencN vN] := by
  cases i <;> cases h
  case venc8 v => exact ⟨v, 0, 0, 0, 0, 0, by simp⟩
  case venc16 v => exact ⟨0, v, 0, 0, 0, 0, by simp⟩
  case venc32 v => exact ⟨0, 0, v, 0, 0, 0, by simp⟩
  case venc64 v => exact ⟨0, 0, 0, v, 0, 0, by simp⟩
  case venc128 v => exact ⟨0, 0, 0, 0, v, 0, by simp⟩
  case vencN => exact ⟨0, 0, 0, 0, 0, v, by simp⟩

end Sys2Proof.Machine

open Sys2Proof.Machine in
/-- Settles O43: each row of a command writes the fields it names, and those are the command's own. -/
theorem eachCommandWritesOnlyItsOwnState : Obligations.EachCommandWritesOnlyItsOwnState := by
  intro i s t ht
  cases commandRow_of_exec ht with
  | decoder | fencTooLarge | fencNoSpace | rxpushNoSpace =>
    exact ⟨⟨rfl, rfl, rfl⟩, fun _ => rfl, fun _ => rfl, fun _ => rfl, fun _ _ => rfl, fun _ _ => rfl⟩
  | encoder h =>
    refine ⟨⟨rfl, rfl, rfl⟩, fun hi => ?_, fun _ => rfl, fun _ => rfl, fun _ _ => rfl, fun _ _ => rfl⟩
    obtain ⟨v8, v16, v32, v64, v128, vN, hmem⟩ := mem_encoders h
    exact absurd hmem (hi v8 v16 v32 v64 v128 vN)
  | fencOk =>
    exact ⟨⟨rfl, rfl, rfl⟩, fun _ => rfl, fun _ => rfl, fun _ => rfl, fun _ _ => rfl, fun hi => absurd rfl (hi _)⟩
  | fdec hrow =>
    cases hrow <;> exact ⟨⟨rfl, rfl, rfl⟩, fun _ => rfl, fun _ => rfl, fun hi => absurd rfl hi,
      fun _ hi => absurd rfl hi, fun _ _ => rfl⟩
  | rxpushOk =>
    exact ⟨⟨rfl, rfl, rfl⟩, fun _ => rfl, fun _ => rfl, fun _ => rfl, fun hi => absurd rfl (hi _), fun _ _ => rfl⟩
  | txpop =>
    exact ⟨⟨rfl, rfl, rfl⟩, fun _ => rfl, fun _ => rfl, fun _ => rfl, fun _ _ => rfl, fun _ hi => absurd rfl (hi _)⟩
  | setmax =>
    exact ⟨⟨rfl, rfl, rfl⟩, fun _ => rfl, fun hi => absurd rfl (hi _), fun _ => rfl, fun _ _ => rfl, fun _ _ => rfl⟩
end

section
/-! PROOFS. One response for every command, which reads no earlier one (R18, R56). -/

namespace Sys2Proof.Machine

/-- A row adds one response, and is the same row whatever the record of responses was before (R18). -/
theorem CommandRow.withResponses {s t : State} {i : Instr} (h : CommandRow s i t) (earlier : List Response) :
    ∃ r, t.responses = s.responses ++ [r] ∧
      CommandRow { s with responses := earlier } i { t with responses := earlier ++ [r] } := by
  cases h with
  | encoder h => exact ⟨_, rfl, .encoder h⟩
  | decoder h => exact ⟨_, rfl, .decoder h⟩
  | fencTooLarge hlt => exact ⟨_, rfl, .fencTooLarge hlt⟩
  | fencOk hle hfits => exact ⟨_, rfl, .fencOk hle hfits⟩
  | fencNoSpace hle hfull => exact ⟨_, rfl, .fencNoSpace hle hfull⟩
  | rxpushOk hfits => exact ⟨_, rfl, .rxpushOk hfits⟩
  | rxpushNoSpace hfull => exact ⟨_, rfl, .rxpushNoSpace hfull⟩
  | txpop => exact ⟨_, rfl, .txpop⟩
  | setmax => exact ⟨_, rfl, .setmax⟩
  | fdec hrow =>
    cases hrow with
    | row1 hp hd => exact ⟨_, rfl, .fdec (.row1 hp hd)⟩
    | row2 hp hd => exact ⟨_, rfl, .fdec (.row2 hp hd)⟩
    | row3 n c hp hd hlt => exact ⟨_, rfl, .fdec (.row3 n c hp hd hlt)⟩
    | row4 n c hp hd hle hshort => exact ⟨_, rfl, .fdec (.row4 n c hp hd hle hshort)⟩
    | row5 n c hp hd hle henough => exact ⟨_, rfl, .fdec (.row5 n c hp hd hle henough)⟩
    | row6 n hp hlt => exact ⟨_, rfl, .fdec (.row6 n hp hlt)⟩
    | row7 n hp hle hshort => exact ⟨_, rfl, .fdec (.row7 n hp hle hshort)⟩
    | row8 n hp hle henough => exact ⟨_, rfl, .fdec (.row8 n hp hle henough)⟩

theorem effect_responses (i : Instr) (s : State) : ∃ r, (effect i s).responses = s.responses ++ [r] :=
  have ⟨r, hr, _⟩ := (commandRow_effect i s).withResponses []
  ⟨r, hr⟩

end Sys2Proof.Machine

open Sys2Proof.Machine in
/-- Settles O47: the row of the command is a row of the state with other responses too. -/
theorem responsesAreNeverRead : Obligations.ResponsesAreNeverRead := by
  intro i s earlier
  obtain ⟨t, hrow⟩ := commandRow_exists i s
  obtain ⟨r, hr, hrow'⟩ := hrow.withResponses earlier
  exact ⟨t, r, exec_of_commandRow hrow, hr, exec_of_commandRow hrow'⟩
end

section
/-! PROOFS. What a step keeps of the parameters and of the host's events (R19, R56, R180). -/

namespace Sys2Proof.Machine

theorem effect_frame (i : Instr) (s : State) :
    (effect i s).cfg = s.cfg ∧ (effect i s).input = s.input ∧ (effect i s).resets = s.resets :=
  have ⟨hframe, _⟩ := eachCommandWritesOnlyItsOwnState i s _ (exec_eq_effect i s)
  hframe

end Sys2Proof.Machine

open Sys2Proof.Machine in
/-- Settles O15: a reset and a reserved word leave the parameters, and so does every command. -/
theorem stepKeepsTheParameters : Obligations.StepKeepsTheParameters := by
  intro s t ht
  obtain ⟨-, rfl⟩ | ⟨_, -, rfl⟩ | ⟨_, _, _, _, -, -, rfl⟩ | ⟨_, _, _, -, -, rfl⟩ | ⟨_, i, rest, -, -, rfl⟩ :=
    step_cases ht
  · rfl
  · rfl
  · rfl
  · rfl
  · obtain ⟨hcfg, -, -⟩ := effect_frame i { s with input := rest }
    exact hcfg

open Sys2Proof.Machine in
/-- Settles O10: of the five kinds of step, an abandoned command takes the reset with it, and a reserved word and a
command that executes give one response. -/
theorem takenCommandGivesOneResponse : Obligations.TakenCommandGivesOneResponse := by
  intro s t c rest hin ht
  obtain ⟨hnil, -⟩ | ⟨_, hreset, -⟩ | ⟨_, _, _, rest', habandoned, -, rfl⟩ | ⟨_, _, rest', hreserved, -, rfl⟩ |
    ⟨_, i, rest', hcommand, -, rfl⟩ := step_cases ht
  · simp [hin] at hnil
  · simp [hin] at hreset
  · obtain ⟨-, rfl⟩ := List.cons.inj (hin.symm.trans habandoned)
    exact .inr ⟨rest', rfl, rfl, rfl, rfl⟩
  · obtain ⟨-, rfl⟩ := List.cons.inj (hin.symm.trans hreserved)
    exact .inl ⟨rfl, rfl, _, rfl⟩
  · obtain ⟨-, rfl⟩ := List.cons.inj (hin.symm.trans hcommand)
    obtain ⟨-, hinput, hresets⟩ := effect_frame i { s with input := rest }
    exact .inl ⟨hinput, hresets, effect_responses i { s with input := rest }⟩
end

section
/-! PROOFS. Legal states (R12, R13, R40): the reset state is legal, and every step keeps the state legal. -/

namespace Sys2Proof.Machine

theorem dec_value_lt {w : Nat} {s : List Byte} {v c : Nat} (h : dec w s = .ok v c) : v < 2 ^ w := by
  obtain ⟨_, _, _, -, -, -, -, -, rfl⟩ := (dec_eq_ok_iff w s v c).mp h
  exact Nat.mod_lt _ (Nat.two_pow_pos w)

theorem within_drop {cap : Capacity} {b : List Byte} (h : Within cap b.length) (n : Nat) :
    Within cap (b.drop n).length :=
  h.mono (by rw [List.length_drop]; exact Nat.sub_le _ _)

/-- A pending length is one that the payload waits for, so it is not 0; a decoded one has `NW` bits. -/
theorem FdecRow.wf {s t : State} {k : Nat} (h : FdecRow s k t) (hs : s.WF) : t.WF := by
  obtain ⟨hrxCap, htxCap, hmax, hpend, hrxb, htxb⟩ := hs
  cases h with
  | row1 | row2 | row7 => exact ⟨hrxCap, htxCap, hmax, hpend, hrxb, htxb⟩
  | row3 | row5 => exact ⟨hrxCap, htxCap, hmax, hpend, within_drop hrxb _, htxb⟩
  | row4 n c hp hd hle hshort =>
    have hn : 1 ≤ n ∧ n < 2 ^ s.nwBits := ⟨by omega, dec_value_lt hd⟩
    exact ⟨hrxCap, htxCap, hmax, hn, within_drop hrxb c, htxb⟩
  | row6 => exact ⟨hrxCap, htxCap, hmax, trivial, hrxb, htxb⟩
  | row8 => exact ⟨hrxCap, htxCap, hmax, trivial, within_drop hrxb _, htxb⟩

theorem CommandRow.wf {s t : State} {i : Instr} (h : CommandRow s i t) (hs : s.WF) : t.WF := by
  obtain ⟨hrxCap, htxCap, hmax, hpend, hrxb, htxb⟩ := hs
  cases h with
  | encoder | decoder | fencTooLarge | fencNoSpace | rxpushNoSpace =>
    exact ⟨hrxCap, htxCap, hmax, hpend, hrxb, htxb⟩
  | fencOk hle hfits => exact ⟨hrxCap, htxCap, hmax, hpend, hrxb, within_append htxb hfits⟩
  | fdec hrow => exact hrow.wf ⟨hrxCap, htxCap, hmax, hpend, hrxb, htxb⟩
  | rxpushOk hfits => exact ⟨hrxCap, htxCap, hmax, hpend, within_append hrxb hfits, htxb⟩
  | txpop => exact ⟨hrxCap, htxCap, hmax, hpend, hrxb, within_drop htxb _⟩
  | setmax => exact ⟨hrxCap, htxCap, trunc_lt _ _, hpend, hrxb, htxb⟩

theorem within_zero (cap : Capacity) : Within cap 0 := by
  cases cap with
  | inf => exact trivial
  | bytes c => exact Nat.zero_le c

theorem two_pow_pred_lt (n : Nat) : 2 ^ n - 1 < 2 ^ n := Nat.sub_lt (Nat.two_pow_pos n) Nat.one_pos

theorem wf_applyReset {s : State} (hs : s.WF) (rest : List HostEvent) : (s.applyReset rest).WF where
  rxCapLegal := hs.rxCapLegal
  txCapLegal := hs.txCapLegal
  maxLenLegal := two_pow_pred_lt s.nwBits
  pendLegal := trivial
  rxbWithin := within_zero _
  txbWithin := within_zero _

theorem wf_resetWith {cfg : Config} (ebuf : Vector Byte 19) (hrx : cfg.rxCap.Legal) (htx : cfg.txCap.Legal) :
    (State.resetWith cfg ebuf).WF where
  rxCapLegal := hrx
  txCapLegal := htx
  maxLenLegal := two_pow_pred_lt cfg.nw.bits
  pendLegal := trivial
  rxbWithin := within_zero _
  txbWithin := within_zero _

theorem wf_withInput {s : State} (hs : s.WF) (rest : List HostEvent) : ({ s with input := rest } : State).WF := by
  obtain ⟨hrxCap, htxCap, hmax, hpend, hrxb, htxb⟩ := hs
  exact ⟨hrxCap, htxCap, hmax, hpend, hrxb, htxb⟩

theorem wf_raise {s : State} (hs : s.WF) (st : Status) (len : Option Nat) : (s.raise st len).WF := by
  obtain ⟨hrxCap, htxCap, hmax, hpend, hrxb, htxb⟩ := hs
  exact ⟨hrxCap, htxCap, hmax, hpend, hrxb, htxb⟩

end Sys2Proof.Machine

open Sys2Proof.Machine in
/-- Settles O13: both queues are empty, no length is pending, and the bound is the largest of `NW` bits. -/
theorem resetStateIsLegal : Obligations.ResetStateIsLegal :=
  ⟨wf_resetWith _ legal_inf legal_inf, fun _ ebuf hrx htx => wf_resetWith ebuf hrx htx⟩

open Sys2Proof.Machine in
/-- Settles O14: each kind of step keeps the state legal; for a command, each of its rows does. -/
theorem stepKeepsStateLegal : Obligations.StepKeepsStateLegal := by
  intro s t hs ht
  obtain ⟨-, rfl⟩ | ⟨rest, -, rfl⟩ | ⟨_, _, _, rest, -, -, rfl⟩ | ⟨_, _, rest, -, -, rfl⟩ | ⟨_, i, rest, -, -, rfl⟩ :=
    step_cases ht
  · exact hs
  · exact wf_applyReset hs rest
  · exact wf_applyReset hs rest
  · exact wf_raise (wf_withInput hs rest) .illegal none
  · exact (commandRow_effect i _).wf (wf_withInput hs rest)
end

section
/-! PROOFS. The length of a code (R71): `j` bytes are enough for exactly the values of `7j` bits, so the length is the
least such `j` and does not depend on the width. -/

namespace Sys2Proof.Machine

theorem pow_groups (j : Nat) : 128 ^ j = 2 ^ (7 * j) := by
  rw [Nat.pow_mul]

theorem enc_length_le_iff {w v : Nat} (hw : 0 < w) (h : v < 2 ^ w) (j : Nat) :
    (enc w v).length ≤ j ↔ 1 ≤ j ∧ v < 2 ^ (7 * j) := by
  obtain ⟨henc, hv⟩ := enc_eq_encLoop w v hw h
  rw [henc, encLoop_length_le _ _ _ hv, pow_groups]

theorem bitlen_le_iff (v k : Nat) : bitlen v ≤ k ↔ v < 2 ^ k := by
  by_cases hv : v = 0
  · simp [bitlen, hv]
  · rw [bitlen, if_neg hv, Nat.succ_le_iff, Nat.log2_lt hv]

theorem bitlen_largest (w : Nat) : bitlen (2 ^ w - 1) = w := by
  refine eq_of_forall_ge_iff fun k => ?_
  have hpos := Nat.two_pow_pos w
  calc bitlen (2 ^ w - 1) ≤ k
      ↔ 2 ^ w - 1 < 2 ^ k := bitlen_le_iff _ k
    _ ↔ 2 ^ w ≤ 2 ^ k := by omega
    _ ↔ w ≤ k := Nat.pow_le_pow_iff_right (by decide)

theorem enc_length_eq {w v : Nat} (hw : 0 < w) (h : v < 2 ^ w) : (enc w v).length = max 1 ((bitlen v + 6) / 7) := by
  refine eq_of_forall_ge_iff fun j => ?_
  rw [enc_length_le_iff hw h, ← bitlen_le_iff]
  omega

theorem enc_length_pos {w v : Nat} (hw : 0 < w) (h : v < 2 ^ w) : 1 ≤ (enc w v).length := by
  rw [enc_length_eq hw h]
  exact Nat.le_max_left _ _

theorem enc_eq_of_le {w₁ w₂ v : Nat} (hw : 0 < w₁) (h : v < 2 ^ w₁) (hle : w₁ ≤ w₂) : enc w₁ v = enc w₂ v := by
  obtain ⟨henc₁, hv₁⟩ := enc_eq_encLoop w₁ v hw h
  obtain ⟨henc₂, hv₂⟩ := enc_eq_encLoop w₂ v (hw.trans_le hle) (h.trans_le (Nat.pow_le_pow_right two_pos hle))
  rw [henc₁, henc₂, encLoop_fuel _ _ v hv₁ hv₂]

end Sys2Proof.Machine

open Sys2Proof.Machine in
/-- Settles O20: the length is the least number of groups that hold the value, and the groups that hold it have at least
`bitlen` bits. -/
theorem encodedLengthFormula : Obligations.EncodedLengthFormula := fun nw w v h =>
  have hw := widthBits_pos nw w
  ⟨enc_length_eq hw h, enc_length_pos hw h, enc_length_le_maxlen _ v hw h⟩

open Sys2Proof.Machine in
/-- Settles O22: zero is one last group, and the largest value of `W` bits has `W` of them. -/
theorem zeroAndLargestCodes : Obligations.ZeroAndLargestCodes := by
  intro nw w
  have hw := widthBits_pos nw w
  have hpos := Nat.two_pow_pos (w.bits nw)
  obtain ⟨henc, -⟩ := enc_eq_encLoop _ 0 hw hpos
  refine ⟨henc.trans (encLoop_last (by decide)), ?_⟩
  rw [enc_length_eq hw (by omega), bitlen_largest]
  exact Nat.max_eq_right (one_le_maxlen _ hw)

open Sys2Proof.Machine in
/-- Settles O23: the loop with more turns than the value needs emits the same bytes. -/
theorem encodingIgnoresTheWidth : Obligations.EncodingIgnoresTheWidth := fun nw w₁ _ _ h hle =>
  enc_eq_of_le (widthBits_pos nw w₁) h hle

open Sys2Proof.Machine in
/-- Settles O33: the code is the wider encoder's, which the wider decoder reads back. -/
theorem widerDecodeOfNarrowerCode : Obligations.WiderDecodeOfNarrowerCode := by
  intro nw w₁ w₂ v h hle
  have hv : v < 2 ^ w₂.bits nw := h.trans_le (Nat.pow_le_pow_right (by decide) hle)
  rw [enc_eq_of_le (widthBits_pos nw w₁) h hle]
  simpa using dec_enc_append [] (widthBits_pos nw w₂) hv
end

section
/-! PROOFS. The bytes of a code (R71): each carries its group, and a last byte `00` would mean that one byte fewer holds
the value. -/

namespace Sys2Proof.Machine

theorem enc_byte {w v i : Nat} {b : Byte} (hw : 0 < w) (h : v < 2 ^ w) (hb : (enc w v)[i]? = some b) :
    b.toNat = v / 2 ^ (7 * i) % 128 + (if i + 1 < (enc w v).length then 128 else 0) := by
  obtain ⟨henc, hv⟩ := enc_eq_encLoop w v hw h
  rw [henc] at hb ⊢
  rw [encLoop_byte _ v i b hv hb, pow_groups]

theorem enc_last_ne_zero {w v i : Nat} {b : Byte} (hw : 0 < w) (h : v < 2 ^ w) (hb : (enc w v)[i]? = some b)
    (hlast : i + 1 = (enc w v).length) (htwo : 2 ≤ (enc w v).length) : b ≠ 0 := by
  rintro rfl
  have hgroup := enc_byte hw h hb
  rw [if_neg (by omega)] at hgroup
  obtain ⟨-, hfits⟩ := (enc_length_le_iff hw h (i + 1)).mp hlast.ge
  have hhigh : v / 2 ^ (7 * i) < 128 := by
    rw [Nat.div_lt_iff_lt_mul (Nat.two_pow_pos _)]
    rwa [Nat.mul_add, Nat.pow_add, Nat.mul_comm] at hfits
  have hzero : v / 2 ^ (7 * i) = 0 := by
    rw [Nat.mod_eq_of_lt hhigh] at hgroup
    exact hgroup.symm
  have hshorter : (enc w v).length ≤ i :=
    (enc_length_le_iff hw h i).mpr ⟨by omega, (Nat.div_eq_zero_iff_lt (Nat.two_pow_pos _)).mp hzero⟩
  omega

end Sys2Proof.Machine

open Sys2Proof.Machine in
/-- Settles O21: `enc_byte` and `enc_last_ne_zero`. -/
theorem encodedBytesCarryTheGroups : Obligations.EncodedBytesCarryTheGroups := fun nw w _ _ _ h hb =>
  have hw := widthBits_pos nw w
  ⟨enc_byte hw h hb, enc_last_ne_zero hw h hb⟩
end

section
/-! PROOFS. What more bytes do to a decoding (R92, R93, R104): continued bytes too few to decide can still end in a
terminator or run on to an overflow, and an overflow stands. -/

namespace Sys2Proof.Machine

theorem allContinue_append {s t : List Byte} (hs : AllContinue s) (ht : AllContinue t) : AllContinue (s ++ t) :=
  fun b hb => (List.mem_append.mp hb).elim (hs b) (ht b)

theorem allContinue_replicate (n : Nat) : AllContinue (List.replicate n 0x80#8) := by
  intro b hb
  rw [List.eq_of_mem_replicate hb]
  rfl

theorem dec_append_of_overflow {w : Nat} {s : List Byte} (t : List Byte) (h : dec w s = .overflow) :
    dec w (s ++ t) = .overflow := by
  obtain ⟨hlen, hcont⟩ := (dec_eq_overflow_iff w s).mp h
  refine dec_continued ?_ ?_
  · rw [List.length_append]
    omega
  · rwa [List.take_append_of_le_length hlen]

theorem dec_take_enc {w v j : Nat} (hw : 0 < w) (h : v < 2 ^ w) (hj : j < (enc w v).length) :
    dec w ((enc w v).take j) = .insufficient := by
  obtain ⟨pre, last, henc, hpre, -, hlen, -⟩ := enc_shape hw h
  rw [henc, List.length_append, List.length_singleton] at hj
  rw [henc, List.take_append_of_le_length (by omega)]
  refine dec_truncated ?_ (allContinue_take hpre j)
  rw [List.length_take]
  omega

end Sys2Proof.Machine

open Sys2Proof.Machine in
/-- Settles O30: the terminator `00` ends the input in time, and `maxlen(W)` more continued bytes run past it. -/
theorem insufficientIsRecoverable : Obligations.InsufficientIsRecoverable := by
  intro nw w s h
  obtain ⟨hlen, hs⟩ := (dec_eq_insufficient_iff _ s).mp h
  refine ⟨⟨[0x00#8], _, _, dec_zeroTerminated [] (widthBits_pos nw w) hs hlen⟩,
    ⟨List.replicate (maxlen (w.bits nw)) 0x80#8, ?_⟩⟩
  refine dec_continued ?_ (allContinue_take (allContinue_append hs (allContinue_replicate _)) _)
  rw [List.length_append, List.length_replicate]
  omega

open Sys2Proof.Machine in
/-- Settles O31: the bytes that overflow are the first `maxlen(W)`, which the continuation leaves in front. -/
theorem overflowIsNeverUndone : Obligations.OverflowIsNeverUndone := fun _ _ _ t h => dec_append_of_overflow t h

open Sys2Proof.Machine in
/-- Settles O32: a proper prefix of a code has only continued bytes, and fewer than `maxlen(W)`. -/
theorem properPrefixesAreInsufficient : Obligations.ProperPrefixesAreInsufficient := fun nw w _ _ h hj =>
  dec_take_enc (widthBits_pos nw w) h hj
end

section
/-! PROOFS. The byte-serial machine (R91): an end stays an end, and in `Continue` with counter `i` the machine has done
the first `i` turns of the loop of R90. -/

namespace Sys2Proof.Machine

theorem Serial.run_cons (w : Nat) (m : Serial) (b : Byte) (t : List Byte) :
    m.run w (b :: t) = (m.onByte w b).run w t := rfl

theorem Serial.run_ended (w : Nat) (r : DecResult) (s : List Byte) : (Serial.ended r).run w s = r := by
  induction s with
  | nil => rfl
  | cons b t ih => rw [Serial.run_cons, Serial.onByte, ih]

theorem Serial.run_cont (w fuel i acc : Nat) (s : List Byte) (hi : i + fuel + 1 = maxlen w) :
    (Serial.cont i acc).run w s = decLoop w (fuel + 1) i acc s := by
  induction s generalizing fuel i acc with
  | nil => rfl
  | cons b t ih =>
    rw [Serial.run_cons, Serial.onByte, decLoop]
    by_cases hb : continues b
    · cases fuel with
      | zero => simp [hb, ← hi, Serial.run_ended, decLoop]
      | succ f =>
        have hmore : i + 1 < maxlen w := by omega
        simp only [hb, hmore, if_true]
        exact ih f (i + 1) _ (by omega)
    · simp [hb, Serial.run_ended]

/-- `Start` takes the first turn; the machine needs room for a second, which every width in scope has. -/
theorem Serial.run_start {w : Nat} (hw : 2 ≤ maxlen w) (s : List Byte) : Serial.start.run w s = dec w s := by
  obtain ⟨fuel, hfuel⟩ : ∃ fuel, maxlen w = fuel + 2 := ⟨maxlen w - 2, by omega⟩
  rw [dec, hfuel]
  cases s with
  | nil => rfl
  | cons b t =>
    rw [Serial.run_cons, Serial.onByte, decLoop]
    by_cases hb : continues b
    · simp only [hb, if_true, Nat.zero_or, Nat.mul_zero, Nat.shiftLeft_zero, Nat.zero_add]
      exact Serial.run_cont w fuel 1 _ t (by omega)
    · simp [hb, Serial.run_ended]

end Sys2Proof.Machine

open Sys2Proof.Machine in
/-- Settles O29: `Serial.run_start`, since every width in scope has at least two permitted bytes. -/
theorem serialMachineComputesDecode : Obligations.SerialMachineComputesDecode := fun nw w s =>
  Serial.run_start (two_le_maxlen (widthBits_ge nw w)) s
end

section
/-! PROOFS. The tables of the spec, entry by entry (R52, R57, R150). -/

open Sys2Proof.Machine in
/-- Settles O17: each entry is computed, and the formula is the definition. -/
theorem maxlenTableOfWidths : Obligations.MaxlenTableOfWidths :=
  ⟨by decide, by decide, by decide, by decide, by decide, by decide, fun _ => rfl⟩

open Sys2Proof.Machine in
/-- Settles O45: each status is tested. -/
theorem statusCodesOfTheTable : Obligations.StatusCodesOfTheTable := by
  refine ⟨by decide, fun st => ?_⟩
  cases st <;> decide

open Sys2Proof.Machine in
/-- Settles O3: each word is a row of the map with its operands, and the last one has `z = 1`. -/
theorem sampleWordsDecode : Obligations.SampleWordsDecode := by
  refine ⟨decode_portRow .venc8 rfl, decode_portRow .vencN rfl, ?_, ?_, decode_portRow .fdec rfl,
    decode_portRow .setmax rfl, (decode_eq_reserved_iff _ _ _).mpr ⟨by decide, rfl⟩⟩
  · exact decode_bytesRow .vdec16 rfl
  · exact decode_bytesRow .fenc rfl
end

section
/-! PROOFS. `FDEC` by its state table (R123): which row applies, what each row answers, and the bound on every
length. -/

namespace Sys2Proof.Machine

/-- The row that applies in a state, from its conditions. -/
def fdecRowNumber (s : State) : Nat :=
  match s.pend, dec s.nwBits s.rxb with
  | .empty, .insufficient => 1
  | .empty, .overflow => 2
  | .empty, .ok n c => if s.maxLen < n then 3 else if s.rxb.length - c < n then 4 else 5
  | .awaitingPayload n, _ => if s.maxLen < n then 6 else if s.rxb.length < n then 7 else 8

theorem fdecRow_number {s t : State} {k : Nat} (h : FdecRow s k t) : k = fdecRowNumber s := by
  cases h with
  | row1 hp hd => simp [fdecRowNumber, hp, hd]
  | row2 hp hd => simp [fdecRowNumber, hp, hd]
  | row3 n c hp hd hlt => simp [fdecRowNumber, hp, hd, hlt]
  | row4 n c hp hd hle hshort => simp [fdecRowNumber, hp, hd, Nat.not_lt.mpr hle, hshort]
  | row5 n c hp hd hle henough => simp [fdecRowNumber, hp, hd, Nat.not_lt.mpr hle, Nat.not_lt.mpr henough]
  | row6 n hp hlt => simp [fdecRowNumber, hp, hlt]
  | row7 n hp hle hshort => simp [fdecRowNumber, hp, Nat.not_lt.mpr hle, hshort]
  | row8 n hp hle henough => simp [fdecRowNumber, hp, Nat.not_lt.mpr hle, Nat.not_lt.mpr henough]

theorem exec_fdec_of_row {s t : State} {k : Nat} (h : FdecRow s k t) : exec .fdec s = .next t :=
  exec_of_commandRow (.fdec h)

theorem fdecRow_of_exec {s t : State} (h : exec .fdec s = .next t) : ∃ k, FdecRow s k t := by
  obtain ⟨k, t', hrow⟩ := fdecRow_exists s
  obtain rfl := Host.Outcome.next.inj (h.symm.trans (exec_fdec_of_row hrow))
  exact ⟨k, hrow⟩

/-- The response of a command is the one its row names. -/
theorem eq_of_answered {u : State} {r r' : Response} (h : (answered u r').responses = u.responses ++ [r]) : r' = r :=
  List.singleton_inj.mp (List.append_cancel_left h)

end Sys2Proof.Machine

open Sys2Proof.Machine in
/-- Settles O37: some row applies, its number follows from the conditions, and its resulting state is what `FDEC`
leaves. -/
theorem fdecRowsAreExhaustiveAndExclusive : Obligations.FdecRowsAreExhaustiveAndExclusive := by
  intro s
  obtain ⟨k, t, h⟩ := fdecRow_exists s
  exact ⟨k, t, h, fun k' t' h' => ⟨(fdecRow_number h').trans (fdecRow_number h).symm,
    (frameDecode_of_row h').symm.trans (frameDecode_of_row h)⟩⟩

open Sys2Proof.Machine in
/-- Settles O38: row by row; the rows that answer no `TOOLARGE` have the length, decoded or pending, within the
bound. -/
theorem fdecEnforcesTheBound : Obligations.FdecEnforcesTheBound := by
  intro s
  obtain ⟨k, t, hrow⟩ := fdecRow_exists s
  refine ⟨t, ?_⟩
  rw [exec_fdec_of_row hrow]
  cases hrow with
  | row1 hp hd =>
    exact ⟨_, rfl, rfl, nofun, fun _ => rfl, by simp [answered, hp], by simp [hd], by simp [hp]⟩
  | row2 hp hd =>
    exact ⟨_, rfl, rfl, nofun, fun _ => rfl, by simp [answered, hp], by simp [hd], by simp [hp]⟩
  | row3 n c hp hd hlt =>
    exact ⟨_, rfl, rfl, nofun, fun _ => rfl, by simp [answered, hp], fun _ _ _ _ _ => rfl, fun _ _ _ => rfl⟩
  | row4 n c hp hd hle hshort =>
    refine ⟨_, rfl, rfl, nofun, fun _ => rfl, by simpa [answered] using hle, ?_, by simp [hp]⟩
    intro m _ _ hd' hlt
    obtain ⟨rfl, -⟩ := DecResult.ok.inj (hd.symm.trans hd')
    omega
  | row5 n c hp hd hle henough =>
    have hlen : ((s.rxb.drop c).take n).length = n := by simp [henough]
    refine ⟨_, rfl, rfl, fun _ => ⟨n, rfl, hle, hlen, .inr ⟨hp, c, hd, rfl⟩⟩, fun h => absurd rfl h,
      by simp [answered, hp], ?_, by simp [hp]⟩
    intro m _ _ hd' hlt
    obtain ⟨rfl, -⟩ := DecResult.ok.inj (hd.symm.trans hd')
    omega
  | row6 n hp hlt =>
    exact ⟨_, rfl, rfl, nofun, fun _ => rfl, by simp [answered], fun _ _ _ _ _ => rfl, fun _ _ _ => rfl⟩
  | row7 n hp hle hshort =>
    have hbound : ∀ m, s.pend = .awaitingPayload m → m ≤ s.maxLen := by
      intro m hm
      obtain rfl := Pend.awaitingPayload.inj (hp.symm.trans hm)
      exact hle
    exact ⟨_, rfl, rfl, nofun, fun _ => rfl, hbound, by simp [hp], fun m hm hlt => absurd (hbound m hm) (by omega)⟩
  | row8 n hp hle henough =>
    have hlen : (s.rxb.take n).length = n := by simp [henough]
    refine ⟨_, rfl, rfl, fun _ => ⟨n, rfl, hle, hlen, .inl ⟨hp, rfl⟩⟩, fun h => absurd rfl h, by simp [answered],
      by simp [hp], ?_⟩
    intro m hm hlt
    obtain rfl := Pend.awaitingPayload.inj (hp.symm.trans hm)
    omega

open Sys2Proof.Machine in
/-- Settles O48: rows 1, 2 and 7 leave the state in which they apply; row 4 leaves the length pending, and row 7 then
answers the same missing count. -/
theorem repeatedFdecChangesNothing : Obligations.RepeatedFdecChangesNothing := by
  intro s t r ht hr hstatus
  obtain ⟨k, hrow⟩ := fdecRow_of_exec ht
  cases hrow with
  | row1 hp hd =>
    obtain rfl := eq_of_answered hr
    exact exec_fdec_of_row (.row1 hp hd)
  | row2 hp hd =>
    obtain rfl := eq_of_answered hr
    exact exec_fdec_of_row (.row2 hp hd)
  | row4 n c hp hd hle hshort =>
    obtain rfl := eq_of_answered hr
    rw [← List.length_drop] at hshort ⊢
    exact exec_fdec_of_row (.row7 n rfl hle hshort)
  | row7 n hp hle hshort =>
    obtain rfl := eq_of_answered hr
    exact exec_fdec_of_row (.row7 n hp hle hshort)
  | row3 | row5 | row6 | row8 =>
    obtain rfl := eq_of_answered hr
    simp at hstatus

namespace Sys2Proof.Machine

theorem Within.fits_one {cap : Capacity} {used m : Nat} (h : Within cap m) (hlt : used < m) :
    fits cap used 1 = true := by
  cases cap with
  | inf => rfl
  | bytes c =>
    rw [within_bytes] at h
    exact decide_eq_true (by omega)

/-- What `NONE` leaves in RXB: less than a whole prefix, or less than the payload that is awaited. -/
theorem FdecRow.rxb_short_of_none {s t : State} {k : Nat} {r : Response} (h : FdecRow s k t)
    (hr : t.responses = s.responses ++ [r]) (hnone : r.status = .none) :
    t.rxb.length < maxlen s.nwBits ∨ t.rxb.length < s.maxLen := by
  cases h with
  | row1 hp hd => exact .inl ((dec_eq_insufficient_iff _ _).mp hd).1
  | row4 n c hp hd hle hshort =>
    rw [← List.length_drop] at hshort
    exact .inr (Nat.lt_of_lt_of_le hshort hle)
  | row7 n hp hle hshort => exact .inr (Nat.lt_of_lt_of_le hshort hle)
  | row2 | row3 | row5 | row6 | row8 =>
    obtain rfl := eq_of_answered hr
    cases hnone

end Sys2Proof.Machine

open Sys2Proof.Machine in
/-- Settles O50: RXB holds less than one of the two sizes that `RX_CAP` was chosen for. -/
theorem noneLeavesRoomWhenSized : Obligations.NoneLeavesRoomWhenSized := by
  intro s t r b _ hsized ht hr hnone
  obtain ⟨k, hrow⟩ := fdecRow_of_exec ht
  obtain ⟨⟨hcfg, -, -⟩, -⟩ := eachCommandWritesOnlyItsOwnState _ _ _ ht
  apply exec_rxpush_of_fits
  rw [hcfg]
  obtain hshort | hshort := hrow.rxb_short_of_none hr hnone
  · exact hsized.prefixFits.fits_one hshort
  · exact hsized.boundFits.fits_one hshort

open Sys2Proof.Machine in
/-- Settles O49: row 7 applies, and a full RXB has no room for a byte. -/
theorem undersizedReceiveBufferIsStuck : Obligations.UndersizedReceiveBufferIsStuck := by
  rintro s n cap q hcap hp hlt hle rfl hq
  refine ⟨exec_fdec_of_row (.row7 n hp hle hlt), exec_rxpush_of_not_fits (fits_bytes_eq_false hcap ?_)⟩
  rw [Nat.sub_self]
  exact List.length_pos_iff.mpr hq
end

section
/-! PROOFS. The statuses each command can answer (R151). -/

namespace Sys2Proof.Machine

theorem statusesOf_encoder {i : Instr} {w : Width} {v : Nat} (h : encoderOf i = some (w, v)) :
    statusesOf i = [.ok] := by
  cases i <;> cases h <;> rfl

theorem statusesOf_decoder {i : Instr} {w : Width} {bs : List Byte} (h : decoderOf i = some (w, bs)) :
    statusesOf i = [.ok, .insufficient, .overflow] := by
  cases i <;> cases h <;> rfl

theorem decodeAnswer_status_mem (d : DecResult) :
    (decodeAnswer d).status ∈ [Status.ok, .insufficient, .overflow] := by
  cases d <;> simp [decodeAnswer]

/-- With a bound that every number of `NW` bits keeps to, no length in a legal state is above it. -/
theorem CommandRow.ne_tooLarge {s t : State} {i : Instr} (h : CommandRow s i t) (hs : s.WF)
    (hmax : s.maxLen = 2 ^ s.nwBits - 1) (hwf : i.WellFormed s.cfg.nw) :
    ∃ r, t.responses = s.responses ++ [r] ∧ r.status ≠ .tooLarge := by
  have hbound {n : Nat} (hn : n < 2 ^ s.nwBits) : ¬ s.maxLen < n := by omega
  cases h with
  | encoder | fencOk | fencNoSpace | rxpushOk | rxpushNoSpace | txpop | setmax => exact ⟨_, rfl, nofun⟩
  | @decoder _ w bs h =>
    refine ⟨_, rfl, fun htoo => ?_⟩
    have hmem := decodeAnswer_status_mem (dec (w.bits s.cfg.nw) bs)
    rw [htoo] at hmem
    exact absurd hmem (by decide)
  | fencTooLarge hlt => exact absurd hlt (hbound (of_decide_eq_true hwf))
  | fdec hrow =>
    cases hrow with
    | row1 | row2 | row4 | row5 | row7 | row8 => exact ⟨_, rfl, nofun⟩
    | row3 n c hp hd hlt => exact absurd hlt (hbound (dec_value_lt hd))
    | row6 n hp hlt =>
      have hpend := hs.pendLegal
      rw [hp] at hpend
      exact absurd hlt (hbound hpend.2)

end Sys2Proof.Machine

open Sys2Proof.Machine in
/-- Settles O44: the response of each row. -/
theorem commandAnswersAnAllowedStatus : Obligations.CommandAnswersAnAllowedStatus := by
  intro i s
  obtain ⟨t, hrow⟩ := commandRow_exists i s
  refine ⟨t, ?_⟩
  rw [exec_of_commandRow hrow]
  cases hrow with
  | encoder h => exact ⟨_, rfl, rfl, by simp [statusesOf_encoder h]⟩
  | decoder h => exact ⟨_, rfl, rfl, statusesOf_decoder h ▸ decodeAnswer_status_mem _⟩
  | fencTooLarge | fencOk | fencNoSpace | rxpushOk | rxpushNoSpace | txpop | setmax =>
    exact ⟨_, rfl, rfl, by simp [statusesOf]⟩
  | fdec hrow => cases hrow <;> exact ⟨_, rfl, rfl, by simp [statusesOf]⟩

open Sys2Proof.Machine in
/-- Settles O51: `CommandRow.ne_tooLarge`. -/
theorem allOnesBoundIsUnbounded : Obligations.AllOnesBoundIsUnbounded := by
  intro s i hs hmax hwf
  obtain ⟨t, hrow⟩ := commandRow_exists i s
  exact ⟨t, (hrow.ne_tooLarge hs hmax hwf).imp fun _ h => ⟨exec_of_commandRow hrow, h⟩⟩
end

section
/-! PROOFS. The state each error outcome leaves (60_exceptions.md section 3): every error but the `TOOLARGE` of `FDEC`
changes nothing, and `FDEC` is read off its state table. -/

namespace Sys2Proof.Machine

section
variable {s t : State} {i : Instr} {k : Nat} {r : Response}

theorem FdecRow.cases_of_tooLarge (h : FdecRow s k t) (hr : t.responses = s.responses ++ [r])
    (hstatus : r.status = .tooLarge) :
    (∃ n c, s.pend = .empty ∧ dec s.nwBits s.rxb = .ok n c ∧ t = answered { s with rxb := s.rxb.drop c } r) ∨
    (∃ n, s.pend = .awaitingPayload n ∧ t = answered { s with pend := .empty } r) := by
  cases h with
  | row3 n c hp hd hlt =>
    obtain rfl := eq_of_answered hr
    exact .inl ⟨n, c, hp, hd, rfl⟩
  | row6 n hp hlt =>
    obtain rfl := eq_of_answered hr
    exact .inr ⟨n, hp, rfl⟩
  | row1 | row2 | row4 | row5 | row7 | row8 =>
    obtain rfl := eq_of_answered hr
    cases hstatus

theorem FdecRow.cases_of_none (h : FdecRow s k t) (hr : t.responses = s.responses ++ [r]) (hstatus : r.status = .none) :
    (s.pend = .empty ∧ dec s.nwBits s.rxb = .insufficient ∧ t = answered s r) ∨
    (∃ n c, s.pend = .empty ∧ dec s.nwBits s.rxb = .ok n c ∧
      t = answered { s with pend := .awaitingPayload n, rxb := s.rxb.drop c } r) ∨
    (∃ n, s.pend = .awaitingPayload n ∧ t = answered s r) := by
  cases h with
  | row1 hp hd =>
    obtain rfl := eq_of_answered hr
    exact .inl ⟨hp, hd, rfl⟩
  | row4 n c hp hd hle hshort =>
    obtain rfl := eq_of_answered hr
    exact .inr (.inl ⟨n, c, hp, hd, rfl⟩)
  | row7 n hp hle hshort =>
    obtain rfl := eq_of_answered hr
    exact .inr (.inr ⟨n, hp, rfl⟩)
  | row2 | row3 | row5 | row6 | row8 =>
    obtain rfl := eq_of_answered hr
    cases hstatus

/-- Only `FDEC` answers `NONE`. -/
theorem CommandRow.fdecRow_of_none (h : CommandRow s i t) (hr : t.responses = s.responses ++ [r])
    (hstatus : r.status = .none) : ∃ k, FdecRow s k t := by
  cases h with
  | fdec hrow => exact ⟨_, hrow⟩
  | @decoder _ w bs h =>
    have hmem := decodeAnswer_status_mem (dec (w.bits s.cfg.nw) bs)
    rw [eq_of_answered hr, hstatus] at hmem
    exact absurd hmem (by decide)
  | encoder | fencTooLarge | fencOk | fencNoSpace | rxpushOk | rxpushNoSpace | txpop | setmax =>
    obtain rfl := eq_of_answered hr
    cases hstatus

theorem CommandRow.unchanged_of_error (h : CommandRow s i t) (hr : t.responses = s.responses ++ [r])
    (hstatus : r.status ∈ [Status.insufficient, .overflow, .noSpace] ∨ r.status = .tooLarge ∧ i ≠ .fdec) :
    t = answered s r := by
  cases h with
  | decoder | fencTooLarge | fencNoSpace | rxpushNoSpace => rw [eq_of_answered hr]
  | encoder | fencOk | rxpushOk | txpop | setmax =>
    obtain rfl := eq_of_answered hr
    simp at hstatus
  | fdec hrow =>
    cases hrow with
    | row2 hp hd => rw [eq_of_answered hr]
    | row1 | row3 | row4 | row5 | row6 | row7 | row8 =>
      obtain rfl := eq_of_answered hr
      simp at hstatus

end

end Sys2Proof.Machine

open Sys2Proof.Machine in
/-- Settles O46: `ILLEGAL` is the step of a reserved word; the other clauses are `unchanged_of_error`, and the rows of
`FDEC` that answer `TOOLARGE` or `NONE`, told apart by PEND and the decoding. -/
theorem errorsLeaveTheStateOfTheTable : Obligations.ErrorsLeaveTheStateOfTheTable := by
  refine ⟨fun s c rest op hin hd => ⟨_, rfl, step_of_reserved hin hd⟩, fun i s t r ht hr => ?_⟩
  have hrow := commandRow_of_exec ht
  refine ⟨fun hst => hrow.unchanged_of_error hr (.inl hst), fun hst hi => hrow.unchanged_of_error hr (.inr ⟨hst, hi⟩),
    ?_, ?_, ?_, ?_, ?_⟩
  · rintro hst rfl n c hp hd
    obtain ⟨k, hfdec⟩ := fdecRow_of_exec ht
    obtain ⟨n', c', -, hd', rfl⟩ | ⟨n', hp', -⟩ := hfdec.cases_of_tooLarge hr hst
    · obtain ⟨-, rfl⟩ := DecResult.ok.inj (hd.symm.trans hd')
      rfl
    · simp [hp] at hp'
  · rintro hst rfl n hp
    obtain ⟨k, hfdec⟩ := fdecRow_of_exec ht
    obtain ⟨n', c', hp', -, -⟩ | ⟨n', -, rfl⟩ := hfdec.cases_of_tooLarge hr hst
    · simp [hp] at hp'
    · rfl
  · intro hst hp hd
    obtain ⟨k, hfdec⟩ := hrow.fdecRow_of_none hr hst
    obtain ⟨-, -, rfl⟩ | ⟨n', c', -, hd', -⟩ | ⟨n', hp', -⟩ := hfdec.cases_of_none hr hst
    · rfl
    · simp [hd] at hd'
    · simp [hp] at hp'
  · intro hst n c hp hd
    obtain ⟨k, hfdec⟩ := hrow.fdecRow_of_none hr hst
    obtain ⟨-, hd', -⟩ | ⟨n', c', -, hd', rfl⟩ | ⟨n', hp', -⟩ := hfdec.cases_of_none hr hst
    · simp [hd] at hd'
    · obtain ⟨rfl, rfl⟩ := DecResult.ok.inj (hd.symm.trans hd')
      rfl
    · simp [hp] at hp'
  · intro hst n hp
    obtain ⟨k, hfdec⟩ := hrow.fdecRow_of_none hr hst
    obtain ⟨hp', -, -⟩ | ⟨n', c', hp', -, -⟩ | ⟨n', -, rfl⟩ := hfdec.cases_of_none hr hst
    · simp [hp] at hp'
    · simp [hp] at hp'
    · rfl
end

section
/-! PROOFS. The queues are first in, first out (R128): what a row takes from the front, and what it appends at the
end. -/

namespace Sys2Proof.Machine

theorem dec_consumed_le {w : Nat} {s : List Byte} {v c : Nat} (h : dec w s = .ok v c) : c ≤ s.length := by
  obtain ⟨pre, b, t, rfl, -, -, -, rfl, -⟩ := (dec_eq_ok_iff w s v c).mp h
  simp

/-- TXB loses `taken` at the front and gains `appended` at the end, as the command `i` that answers `r` should
(R128). -/
def TxbFifo (i : Instr) (s t : State) (r : Response) : Prop :=
  ∃ taken appended, taken ++ t.txb = s.txb ++ appended ∧
    ((∃ p, i = .fenc p ∧ r.status = .ok ∧ appended = frameOf s.nwBits p) ∨
      (∀ p, i = .fenc p → r.status ≠ .ok) ∧ appended = []) ∧
    ((∃ c, i = .txpop c ∧ taken = r.result) ∨ (∀ c, i ≠ .txpop c) ∧ taken = [])

/-- RXB loses a prefix and a payload at the front and gains `appended` at the end, as the command should (R128). -/
def RxbFifo (i : Instr) (s t : State) (r : Response) : Prop :=
  ∃ pre payload appended, pre ++ payload ++ t.rxb = s.rxb ++ appended ∧
    (i = .rxpush appended ∧ r.status = .ok ∨ (∀ q, i = .rxpush q → r.status ≠ .ok) ∧ appended = []) ∧
    ((i = .fdec ∧ s.pend = .empty ∧ ∃ n, dec s.nwBits s.rxb = .ok n pre.length) ∨
      (i = .fdec → s.pend = .empty → ∀ n c, dec s.nwBits s.rxb ≠ .ok n c) ∧ pre = []) ∧
    (i = .fdec ∧ r.status = .frame ∧ payload = r.result ∨ (i = .fdec → r.status ≠ .frame) ∧ payload = [])

section
variable {i : Instr} {s t : State} {r : Response} {n c : Nat}

theorem txbFifo_of_unchanged (h : t.txb = s.txb) (hfenc : ∀ p, i = .fenc p → r.status ≠ .ok)
    (hpop : ∀ c, i ≠ .txpop c) : TxbFifo i s t r :=
  ⟨[], [], by simp [h], .inr ⟨hfenc, rfl⟩, .inr ⟨hpop, rfl⟩⟩

theorem rxbFifo_of_unchanged (h : t.rxb = s.rxb) (hpush : ∀ q, i = .rxpush q → r.status ≠ .ok) (hfdec : i ≠ .fdec) :
    RxbFifo i s t r :=
  ⟨[], [], [], by simp [h], .inr ⟨hpush, rfl⟩, .inr ⟨fun hi => absurd hi hfdec, rfl⟩,
    .inr ⟨fun hi => absurd hi hfdec, rfl⟩⟩

/-- The length phase takes the prefix it decodes; the payload phase then takes `payload`. -/
theorem rxbFifo_of_decoded {payload : List Byte} (hp : s.pend = .empty) (hd : dec s.nwBits s.rxb = .ok n c)
    (hrest : payload ++ t.rxb = s.rxb.drop c)
    (hpayload : r.status = .frame ∧ payload = r.result ∨ r.status ≠ .frame ∧ payload = []) :
    RxbFifo .fdec s t r := by
  have hlen : (s.rxb.take c).length = c := List.length_take_of_le (dec_consumed_le hd)
  refine ⟨s.rxb.take c, payload, [], ?_, .inr ⟨nofun, rfl⟩, .inl ⟨rfl, hp, n, hlen.symm ▸ hd⟩, ?_⟩
  · rw [List.append_assoc, hrest, List.take_append_drop, List.append_nil]
  · exact hpayload.imp (⟨rfl, ·⟩) (And.imp_left fun h _ => h)

/-- Where no prefix is decoded, only a payload can be taken. -/
theorem rxbFifo_of_not_decoded {payload : List Byte} (hnone : s.pend = .empty → ∀ n c, dec s.nwBits s.rxb ≠ .ok n c)
    (hrest : payload ++ t.rxb = s.rxb)
    (hpayload : r.status = .frame ∧ payload = r.result ∨ r.status ≠ .frame ∧ payload = []) :
    RxbFifo .fdec s t r :=
  ⟨[], payload, [], by simpa using hrest, .inr ⟨nofun, rfl⟩, .inr ⟨fun _ => hnone, rfl⟩,
    hpayload.imp (⟨rfl, ·⟩) (And.imp_left fun h _ => h)⟩

end

theorem FdecRow.rxbFifo {s t : State} {k : Nat} (h : FdecRow s k t) :
    ∃ r, t.responses = s.responses ++ [r] ∧ RxbFifo .fdec s t r := by
  cases h with
  | row1 hp hd => exact ⟨_, rfl, rxbFifo_of_not_decoded (by simp [hd]) rfl (.inr ⟨nofun, rfl⟩)⟩
  | row2 hp hd => exact ⟨_, rfl, rxbFifo_of_not_decoded (by simp [hd]) rfl (.inr ⟨nofun, rfl⟩)⟩
  | row3 n c hp hd hlt => exact ⟨_, rfl, rxbFifo_of_decoded hp hd rfl (.inr ⟨nofun, rfl⟩)⟩
  | row4 n c hp hd hle hshort => exact ⟨_, rfl, rxbFifo_of_decoded hp hd rfl (.inr ⟨nofun, rfl⟩)⟩
  | row5 n c hp hd hle henough =>
    refine ⟨_, rfl, rxbFifo_of_decoded hp hd ?_ (.inl ⟨rfl, rfl⟩)⟩
    rw [answered, ← List.drop_drop, List.take_append_drop]
  | row6 n hp hlt => exact ⟨_, rfl, rxbFifo_of_not_decoded (by simp [hp]) rfl (.inr ⟨nofun, rfl⟩)⟩
  | row7 n hp hle hshort => exact ⟨_, rfl, rxbFifo_of_not_decoded (by simp [hp]) rfl (.inr ⟨nofun, rfl⟩)⟩
  | row8 n hp hle henough =>
    exact ⟨_, rfl, rxbFifo_of_not_decoded (by simp [hp]) (List.take_append_drop n s.rxb) (.inl ⟨rfl, rfl⟩)⟩

/-- A command that is none of the four queue commands. -/
def NoQueueCommand (i : Instr) : Prop :=
  (∀ p, i ≠ .fenc p) ∧ (∀ c, i ≠ .txpop c) ∧ (∀ q, i ≠ .rxpush q) ∧ i ≠ .fdec

theorem noQueueCommand_encoder {i : Instr} {w : Width} {v : Nat} (h : encoderOf i = some (w, v)) :
    NoQueueCommand i := by
  cases i <;> cases h <;> exact ⟨nofun, nofun, nofun, nofun⟩

theorem noQueueCommand_decoder {i : Instr} {w : Width} {bs : List Byte} (h : decoderOf i = some (w, bs)) :
    NoQueueCommand i := by
  cases i <;> cases h <;> exact ⟨nofun, nofun, nofun, nofun⟩

theorem fifo_of_noQueueCommand {i : Instr} {s t : State} {r : Response} (h : NoQueueCommand i) (htxb : t.txb = s.txb)
    (hrxb : t.rxb = s.rxb) : TxbFifo i s t r ∧ RxbFifo i s t r := by
  obtain ⟨hfenc, hpop, hpush, hfdec⟩ := h
  exact ⟨txbFifo_of_unchanged htxb (fun p hi => absurd hi (hfenc p)) hpop,
    rxbFifo_of_unchanged hrxb (fun q hi => absurd hi (hpush q)) hfdec⟩

theorem CommandRow.fifo {i : Instr} {s t : State} (h : CommandRow s i t) :
    ∃ r, t.responses = s.responses ++ [r] ∧ TxbFifo i s t r ∧ RxbFifo i s t r := by
  cases h with
  | encoder h => exact ⟨_, rfl, fifo_of_noQueueCommand (noQueueCommand_encoder h) rfl rfl⟩
  | decoder h => exact ⟨_, rfl, fifo_of_noQueueCommand (noQueueCommand_decoder h) rfl rfl⟩
  | setmax => exact ⟨_, rfl, fifo_of_noQueueCommand ⟨nofun, nofun, nofun, nofun⟩ rfl rfl⟩
  | fencTooLarge | fencNoSpace =>
    exact ⟨_, rfl, txbFifo_of_unchanged rfl nofun nofun, rxbFifo_of_unchanged rfl nofun nofun⟩
  | @fencOk p hle hfits =>
    exact ⟨_, rfl, ⟨[], _, rfl, .inl ⟨p, rfl, rfl, rfl⟩, .inr ⟨nofun, rfl⟩⟩, rxbFifo_of_unchanged rfl nofun nofun⟩
  | @txpop c =>
    refine ⟨_, rfl, ⟨_, [], ?_, .inr ⟨nofun, rfl⟩, .inl ⟨c, rfl, rfl⟩⟩, rxbFifo_of_unchanged rfl nofun nofun⟩
    rw [answered, List.take_append_drop, List.append_nil]
  | rxpushOk hfits =>
    exact ⟨_, rfl, txbFifo_of_unchanged rfl nofun nofun,
      ⟨[], [], _, rfl, .inl ⟨rfl, rfl⟩, .inr ⟨nofun, rfl⟩, .inr ⟨nofun, rfl⟩⟩⟩
  | rxpushNoSpace => exact ⟨_, rfl, txbFifo_of_unchanged rfl nofun nofun, rxbFifo_of_unchanged rfl nofun nofun⟩
  | fdec hrow =>
    obtain ⟨r, hr, hrxb⟩ := hrow.rxbFifo
    have htxb : t.txb = s.txb := by cases hrow <;> rfl
    exact ⟨r, hr, txbFifo_of_unchanged htxb nofun nofun, hrxb⟩

end Sys2Proof.Machine

open Sys2Proof.Machine in
/-- Settles O42: `TxbFifo` and `RxbFifo` are its two parts, and each row of a command has both. -/
theorem queuesAreFirstInFirstOut : Obligations.QueuesAreFirstInFirstOut := fun _ _ _ ht =>
  (commandRow_of_exec ht).fifo
end

section
/-! PROOFS. A frame `e ++ p` pushed in pieces (R127). `received` is the state when `n` bytes of the frame were pushed
and `FDEC` ran after the last of them; one turn leads from it to `received` at more bytes, and the sequence is a run
of turns. -/

namespace Sys2Proof.Machine

/-- `s` with another PEND, RXB and record of responses. -/
def holding (s : State) (pend : Pend) (rxb : List Byte) (responses : List Response) : State :=
  { s with pend := pend, rxb := rxb, responses := responses }

/-- The state after the first `n` bytes of the frame `e ++ p` and an `FDEC`: an incomplete prefix stands in RXB; a whole
one was taken, and its length is pending until the payload is there; a whole frame was taken. -/
def received (s : State) (e p : List Byte) (n : Nat) (responses : List Response) : State :=
  if n < e.length then holding s .empty (e.take n) responses
  else if n < e.length + p.length then holding s (.awaitingPayload p.length) (p.take (n - e.length)) responses
  else holding s .empty [] responses

/-- `e ++ p` is the frame of the payload `p`, which keeps to the bound, and the frame to the capacity (R127). -/
structure ReadyFor (s : State) (e p : List Byte) : Prop where
  code : e = enc s.nwBits p.length
  fitsNative : p.length < 2 ^ s.nwBits
  withinBound : p.length ≤ s.maxLen
  withinCap : Within s.cfg.rxCap (e.length + p.length)

section
variable {s : State} {e p : List Byte} {n : Nat} {responses : List Response}

theorem received_of_incomplete_prefix (h : n < e.length) :
    received s e p n responses = holding s .empty (e.take n) responses :=
  if_pos h

theorem received_of_incomplete_payload (he : e.length ≤ n) (h : n < e.length + p.length) :
    received s e p n responses = holding s (.awaitingPayload p.length) (p.take (n - e.length)) responses := by
  rw [received, if_neg (Nat.not_lt.mpr he), if_pos h]

theorem received_of_complete (h : e.length + p.length ≤ n) :
    received s e p n responses = holding s .empty [] responses := by
  rw [received, if_neg (by omega), if_neg (Nat.not_lt.mpr h)]

theorem nwBits_pos (s : State) : 0 < s.nwBits := widthBits_pos s.cfg.nw .native

theorem ReadyFor.prefix_pos (h : ReadyFor s e p) : 0 < e.length := by
  rw [h.code]
  exact enc_length_pos (nwBits_pos s) h.fitsNative

/-- With no byte of a prefix, or some but not all, `FDEC` answers `NONE` and keeps them (row 1). -/
theorem exec_fdec_incomplete_prefix (h : ReadyFor s e p) (hn : n < e.length) :
    exec .fdec (holding s .empty (e.take n) responses) =
      .next (holding s .empty (e.take n) (responses ++ [⟨.none, none, some 0, []⟩])) := by
  have hd : dec s.nwBits (e.take n) = .insufficient := by
    rw [h.code] at hn ⊢
    exact dec_take_enc (nwBits_pos s) h.fitsNative hn
  exact exec_fdec_of_row (.row1 rfl hd)

theorem exec_fdec_awaiting (n : Nat) (rxb : List Byte) :
    exec .fdec (holding s (.awaitingPayload n) rxb responses) =
      .next (payloadPhase n (holding s (.awaitingPayload n) rxb responses)) :=
  (exec_eq_effect .fdec _).trans
    (congrArg _ (frameDecode_awaiting (s := holding s (.awaitingPayload n) rxb responses) rfl))

/-- A whole prefix is taken and its length is pending: from there on it is the payload phase alone. -/
theorem exec_fdec_whole_prefix (h : ReadyFor s e p) (x : List Byte) :
    exec .fdec (holding s .empty (e ++ x) responses) =
      .next (payloadPhase p.length (holding s (.awaitingPayload p.length) x responses)) := by
  have hd : dec s.nwBits (e ++ x) = .ok p.length e.length := by
    rw [h.code]
    exact dec_enc_append x (nwBits_pos s) h.fitsNative
  have hphase := frameDecode_ok (s := holding s .empty (e ++ x) responses) rfl hd
  refine (exec_eq_effect .fdec _).trans (congrArg _ (hphase.trans ?_))
  simp only [holding, State.setPend, State.dropRxb, List.drop_left]

/-- The payload phase on what has come of the payload: the frame, or the count still missing. -/
theorem payloadPhase_received (h : ReadyFor s e p) {before now : Nat} (hbefore : before < e.length + p.length)
    (hprefix : e.length ≤ now) (hnow : now ≤ e.length + p.length) :
    payloadPhase p.length (holding s (.awaitingPayload p.length) (p.take (now - e.length)) responses) =
      received s e p now (responses ++ [turnAnswer e.length p before now]) := by
  have hbound : p.length ≤ (holding s (.awaitingPayload p.length) (p.take (now - e.length)) responses).maxLen :=
    h.withinBound
  have hlen : (p.take (now - e.length)).length = now - e.length := List.length_take_of_le (by omega)
  by_cases hwhole : now = e.length + p.length
  · have htake : p.take (now - e.length) = p := List.take_of_length_le (by omega)
    rw [htake] at hbound ⊢
    rw [received_of_complete hwhole.ge, payloadPhase_frame hbound le_rfl, turnAnswer, if_neg hbefore.ne, if_pos hwhole]
    simp [answered, holding, State.dropRxb, State.setPend]
  · have hshort : (p.take (now - e.length)).length < p.length := by omega
    have hmissing : p.length - (p.take (now - e.length)).length = e.length + p.length - now := by omega
    rw [received_of_incomplete_payload hprefix (by omega), payloadPhase_incomplete hbound hshort, turnAnswer,
      if_neg hbefore.ne, if_neg hwhole, if_neg (Nat.not_lt.mpr hprefix)]
    simp only [answered, holding, hmissing]

theorem pushThenDecode_holding {pend : Pend} {rxb q : List Byte}
    (h : Within s.cfg.rxCap (rxb ++ q).length) :
    pushThenDecode q (holding s pend rxb responses) =
      exec .fdec (holding s pend (rxb ++ q) (responses ++ [⟨.ok, none, none, []⟩])) := by
  have hfits : fits s.cfg.rxCap rxb.length q.length = true := by
    cases hcap : s.cfg.rxCap with
    | inf => rfl
    | bytes c =>
      rw [hcap, within_bytes, List.length_append] at h
      exact decide_eq_true (by omega)
  have hpush := exec_rxpush_of_fits (s := holding s pend rxb responses) hfits
  rw [pushThenDecode, hpush]
  rfl

/-- The next bytes of a sequence join those before them. -/
theorem take_append_next {l q rest : List Byte} (n : Nat) (h : l.drop n = q ++ rest) :
    l.take n ++ q = l.take (n + q.length) := by
  rw [List.take_add, h, List.take_left]

theorem next_piece_length_le {q rest : List Byte} (hn : n ≤ e.length + p.length) (h : (e ++ p).drop n = q ++ rest) :
    n + q.length ≤ e.length + p.length := by
  have hlen := congrArg List.length h
  rw [List.length_drop, List.length_append, List.length_append] at hlen
  omega

/-- One turn of R127: the piece `q` is the next part of the frame. -/
theorem pushThenDecode_received (h : ReadyFor s e p) {before : Nat} {q rest : List Byte}
    (hbefore : before ≤ e.length + p.length) (hq : (e ++ p).drop before = q ++ rest) :
    pushThenDecode q (received s e p before responses) =
      .next (received s e p (before + q.length)
        (responses ++ [⟨.ok, none, none, []⟩] ++ [turnAnswer e.length p before (before + q.length)])) := by
  have hnow : before + q.length ≤ e.length + p.length := next_piece_length_le hbefore hq
  obtain hcomplete | hincomplete := hbefore.eq_or_lt
  · obtain rfl : q = [] := List.eq_nil_of_length_eq_zero (by omega)
    rw [List.length_nil, Nat.add_zero, received_of_complete hcomplete.ge, pushThenDecode_holding (within_zero _),
      received_of_complete hcomplete.ge, turnAnswer, if_pos hcomplete]
    exact exec_fdec_incomplete_prefix (n := 0) h h.prefix_pos
  by_cases hprefix : before < e.length
  · have hnext : e.take before ++ q = (e ++ p).take (before + q.length) := by
      rw [← take_append_next before hq, List.take_append_of_le_length hprefix.le]
    have hcap : Within s.cfg.rxCap (e.take before ++ q).length :=
      h.withinCap.mono (by rw [hnext, List.length_take]; omega)
    rw [received_of_incomplete_prefix hprefix, pushThenDecode_holding hcap, hnext]
    by_cases hstill : before + q.length < e.length
    · rw [List.take_append_of_le_length hstill.le, exec_fdec_incomplete_prefix h hstill,
        received_of_incomplete_prefix hstill, turnAnswer, if_neg hincomplete.ne, if_neg (by omega), if_pos hstill]
    · rw [List.take_append, List.take_of_length_le (by omega), exec_fdec_whole_prefix h,
        payloadPhase_received h hincomplete (by omega) hnow]
  · have hpayload : p.drop (before - e.length) = q ++ rest := by
      rwa [List.drop_append, List.drop_of_length_le (by omega), List.nil_append] at hq
    have hnext : p.take (before - e.length) ++ q = p.take (before + q.length - e.length) := by
      rw [take_append_next _ hpayload, Nat.sub_add_comm (by omega)]
    have hcap : Within s.cfg.rxCap (p.take (before - e.length) ++ q).length :=
      h.withinCap.mono (by rw [hnext, List.length_take]; omega)
    rw [received_of_incomplete_payload (by omega) hincomplete, pushThenDecode_holding hcap, hnext, exec_fdec_awaiting,
      payloadPhase_received h hincomplete (by omega) hnow]

/-- The rest of the pieces, from any point of the frame on. -/
theorem pushPieces_received (h : ReadyFor s e p) (pieces : List (List Byte)) {before : Nat}
    (hbefore : before ≤ e.length + p.length) (hpieces : (e ++ p).drop before = pieces.flatten) :
    pushPieces pieces (received s e p before responses) =
      .next (holding s .empty [] (responses ++ splitAnswers e.length p before pieces)) := by
  induction pieces generalizing before responses with
  | nil =>
    have hcomplete : e.length + p.length ≤ before := by
      rw [← List.length_append]
      exact List.drop_eq_nil_iff.mp hpieces
    rw [pushPieces, received_of_complete hcomplete, splitAnswers, List.append_nil]
  | cons q qs ih =>
    rw [List.flatten_cons] at hpieces
    have hnow : before + q.length ≤ e.length + p.length := next_piece_length_le hbefore hpieces
    have hrest : (e ++ p).drop (before + q.length) = qs.flatten := by
      rw [← List.drop_drop, hpieces, List.drop_left]
    simp only [pushPieces, pushThenDecode_received h hbefore hpieces, ih hnow hrest, splitAnswers, List.append_assoc,
      List.cons_append, List.nil_append]

end

end Sys2Proof.Machine

open Sys2Proof.Machine in
/-- Settles O41: before the first piece nothing of the frame was received, and the pieces are a run of turns from
there. -/
theorem framingRoundTripOverEverySplit : Obligations.FramingRoundTripOverEverySplit := by
  intro s p pieces hpend hrxb hbound hnative hcap hpieces
  have hready : ReadyFor s (enc s.nwBits p.length) p := ⟨rfl, hnative, hbound, hcap⟩
  have hstart : received s (enc s.nwBits p.length) p 0 s.responses = s := by
    rw [received_of_incomplete_prefix hready.prefix_pos, holding, List.take_zero, ← hpend, ← hrxb]
  have hrun := pushPieces_received (responses := s.responses) hready pieces (Nat.zero_le _) hpieces.symm
  rw [hstart] at hrun
  rw [hrun, holding, ← hpend, ← hrxb]
end
